-- ==== Sys2Proof/Word.lean ====
section
/-! DEFINITION. The word types of the conf_dz4 core: the widths the spec fixes (00_scope R5; 10_state R22). -/

namespace Sys2Proof

/-- One byte of the instruction space (R6). -/
abbrev Byte := BitVec 8

/-- One cell of the data memory, an unsigned 16-bit value (R22, CELL_BITS). -/
abbrev Cell := BitVec 16

/-- The opcode tag, operand A (R5, TAG_BITS). -/
abbrev Tag := BitVec 7

/-- An address operand field (R5, ADDR_BITS). -/
abbrev Addr := BitVec 32

/-- The value operand C of LOAD_CONST (R5, IMM_BITS). -/
abbrev Imm := BitVec 16

/-- The offset operand D (R5, OFF_BITS). -/
abbrev Off := BitVec 16

end Sys2Proof
end

