-- ==== Sys2Proof/Config.lean ====
section
/-! DEFINITION. What is fixed for the machine: its parameters (00_scope R5) and its closed lists of names
(operations and formats of 30_encoding R68, fault kinds of 60_exceptions R130, run states of 10_state R26).
The spec leaves no value of the machine open (93_implementation_defined §1), so there is no free value here. -/

namespace Sys2Proof

/-- CAP of this hardware, the number of cells (R5; a configuration value of the instance, log 6). -/
def Config.capacity : Nat := 1024

/-- The four operations of the length table (R68). -/
inductive Opcode where
  | loadConst
  | writeMem
  | readMem
  | unarySqrt
  deriving DecidableEq, Repr

/-- The three instruction formats (R65 LC, R66 WM, R67 RS). -/
inductive Format where
  | lc
  | wm
  | rs
  deriving DecidableEq, Repr

/-- The faults the block can raise (R130); the status register FAULT holds one of them or None (R27). -/
inductive FaultKind where
  /-- The tag at the cursor is none of the four (R131). -/
  | unknownOpcode
  /-- Fewer bytes remain than the instruction's length (R132). -/
  | truncatedStream
  /-- An address or the export range lies outside the data memory (R133). -/
  | memoryFault
  deriving DecidableEq, Repr

/-- RUNSTATE (R26). -/
inductive RunState where
  | ready
  | running
  | halted
  | faulted
  deriving DecidableEq, Repr

/-- One request of the host's, as State.inputs lists them (R103; log 3). -/
inductive HostInput where
  /-- The host asks for nothing: the sequencer takes its step. -/
  | idle
  /-- The reset input (R160). -/
  | reset
  /-- The start request with the buffer and the export bounds (R91). -/
  | start (ibuf : List Byte) (lo hi : Nat)
  deriving DecidableEq, Repr

end Sys2Proof
end

