-- ==== Sys2Proof/Syntax.lean ====
section
/-! DEFINITION. The instructions as syntax: one constructor per row of spec/opcode_table.json (30_encoding R61). -/

namespace Sys2Proof

/-- A decoded instruction with its operand values, in the spec's order A, B, C, D (R61).
A is the 7-bit tag as decoded (R62); it takes no part in execution (R113 a; log 11). -/
inductive Instr where
  /-- LOAD_CONST (R110): `MEM[B] <- C`. -/
  | loadConst (a : Tag) (b : Addr) (c : Imm)
  /-- WRITE_MEM (R111): `MEM[B] <- MEM[C]`. -/
  | writeMem (a : Tag) (b c : Addr)
  /-- READ_MEM (R112): `MEM[B] <- MEM[MEM[C] + D]`. -/
  | readMem (a : Tag) (b c : Addr) (d : Off)
  /-- UNARY_SQRT (R121): `MEM[C + D] <- isqrt(MEM[B])`. -/
  | unarySqrt (a : Tag) (b c : Addr) (d : Off)
  deriving DecidableEq, Repr

end Sys2Proof
end

