-- ==== Sys2Proof/WellFormed.lean ====
section
/-! DEFINITION. Which instructions are well formed: operand A is the tag of the operation (30_encoding R61, R81;
41_data_movement R113 a). Every value of B, C and D is a legal encoding (R76). -/

namespace Sys2Proof

/-- Operand A is the tag the table gives the mnemonic (R61). -/
def Instr.wellFormed : Instr → Bool
  | .loadConst a _ _ => a == 94
  | .writeMem a _ _ => a == 88
  | .readMem a _ _ _ => a == 9
  | .unarySqrt a _ _ _ => a == 34

end Sys2Proof
end

