-- ==== Sys2Proof/Decode.lean ====
section
/-! DEFINITION. The instruction codec: the tag and length table, the declarative field layout, the decoder and the
encoder (30_encoding R60 to R77). Decoding is total on any bytes and rejects by name. -/

namespace Sys2Proof

/-! ### Byte order (R6, R43) -/

/-- `le_n`: the little-endian unsigned value of a byte sequence (R6). -/
def leValue : List Byte → Nat
  | [] => 0
  | b :: bs => b.toNat + 256 * leValue bs

/-- `bytes_n(v)`: the n-byte little-endian representation of `v` (R73). -/
def leBytes : Nat → Nat → List Byte
  | 0, _ => []
  | n + 1, v => BitVec.ofNat 8 v :: leBytes n (v / 256)

/-! ### The table of R61 and R68 -/

/-- The tag of each operation: the one table both directions use (R68, R73). -/
def Opcode.tag : Opcode → Tag
  | .loadConst => 94
  | .writeMem => 88
  | .readMem => 9
  | .unarySqrt => 34

/-- The operation a tag selects; the other 124 tags select none (R68). -/
def Opcode.ofTag (t : Tag) : Option Opcode :=
  if t = Opcode.tag .loadConst then some .loadConst
  else if t = Opcode.tag .writeMem then some .writeMem
  else if t = Opcode.tag .readMem then some .readMem
  else if t = Opcode.tag .unarySqrt then some .unarySqrt
  else none

/-- The operand shape of each operation (R68). -/
def Opcode.format : Opcode → Format
  | .loadConst => .lc
  | .writeMem => .wm
  | .readMem => .rs
  | .unarySqrt => .rs

/-- `LEN`: the instruction's length in bytes, the tag byte counted (R68). -/
def Format.length : Format → Nat
  | .lc => 7
  | .wm => 9
  | .rs => 11

/-- `LEN` by operation (R68). -/
def Opcode.length (o : Opcode) : Nat := o.format.length

/-- The operation of an instruction. -/
def Instr.opcode : Instr → Opcode
  | .loadConst .. => .loadConst
  | .writeMem .. => .writeMem
  | .readMem .. => .readMem
  | .unarySqrt .. => .unarySqrt

/-- The length of an instruction's encoding (R68). -/
def Instr.length (i : Instr) : Nat := i.opcode.length

/-! ### Field layout (R64 to R67, the spec's decision D1; log 10) -/

/-- Where an operand field stands: its byte offset in the instruction and its width in bytes. -/
structure FieldPlace where
  offset : Nat
  bytes : Nat
  deriving DecidableEq, Repr

/-- B: bytes 1 to 4 in every format (R65 to R67). -/
def placeB : FieldPlace := ⟨1, 4⟩

/-- C: bytes 5 to 6 in format LC (R65), 5 to 8 in WM and RS (R66, R67). -/
def placeC : Format → FieldPlace
  | .lc => ⟨5, 2⟩
  | .wm => ⟨5, 4⟩
  | .rs => ⟨5, 4⟩

/-- D: bytes 9 to 10, in format RS only (R67). -/
def placeD : FieldPlace := ⟨9, 2⟩

/-- The raw unsigned value of a field of the instruction whose bytes start the list (R43, R67). -/
def FieldPlace.value (p : FieldPlace) (bs : List Byte) : Nat :=
  leValue ((bs.drop p.offset).take p.bytes)

/-- The field extractor: the instruction an operation's bytes spell (R65 to R67). -/
def extractFields (op : Opcode) (a : Tag) (bs : List Byte) : Instr :=
  let b : Addr := BitVec.ofNat 32 (placeB.value bs)
  let c : Nat := (placeC op.format).value bs
  let d : Off := BitVec.ofNat 16 (placeD.value bs)
  match op with
  | .loadConst => .loadConst a b (BitVec.ofNat 16 c)
  | .writeMem => .writeMem a b (BitVec.ofNat 32 c)
  | .readMem => .readMem a b (BitVec.ofNat 32 c) d
  | .unarySqrt => .unarySqrt a b (BitVec.ofNat 32 c) d

/-! ### The decoder -/

/-- Byte 0's low 7 bits; bit 7 is dropped (R62, R63). -/
def tagOf (b0 : Byte) : Tag := b0.setWidth 7

/-- The outputs of the sub-block DEC (R72). `op` is none exactly when the tag is not known. -/
structure DecSignals where
  tag : Tag
  op : Option Opcode
  trunc : Bool
  deriving DecidableEq, Repr

/-- DEC's output `known` (R72). -/
def DecSignals.known (d : DecSignals) : Bool := d.op.isSome

/-- DEC's output `len`, meaningful only when the tag is known (R72). -/
def DecSignals.len (d : DecSignals) : Option Nat := d.op.map Opcode.length

/-- DEC's output `fmt` (R72). -/
def DecSignals.fmt (d : DecSignals) : Option Format := d.op.map Opcode.format

/-- DEC: from the byte at the cursor and the number of bytes that remain (R72). -/
def dec (b0 : Byte) (rem : Nat) : DecSignals :=
  let op := Opcode.ofTag (tagOf b0)
  { tag := tagOf b0
    op := op
    trunc := op.any (fun o => decide (rem < o.length)) }

/-- `decode` on the bytes from the cursor on: the instruction and the bytes it takes, or the fault (R69).
No byte at all is TruncatedStream (R69, D16). -/
def decodeBytes : List Byte → Except FaultKind (Instr × Nat)
  | [] => .error .truncatedStream
  | b0 :: rest =>
    let sig := dec b0 (rest.length + 1)
    match sig.op with
    | none => .error .unknownOpcode
    | some op =>
      if sig.trunc then .error .truncatedStream
      else .ok (extractFields op sig.tag (b0 :: rest), op.length)

/-- `decode(IBUF, L, s)` (R69). -/
def decode (ibuf : List Byte) (s : Nat) : Except FaultKind (Instr × Nat) :=
  decodeBytes (ibuf.drop s)

/-! ### The encoder -/

/-- Byte 0 as the encoder writes it: the operation's tag, bit 7 clear (R63, R73). -/
def tagByte (o : Opcode) : Byte := o.tag.setWidth 8

/-- `encode` (R73). -/
def encode : Instr → List Byte
  | .loadConst _ b c => tagByte .loadConst :: (leBytes 4 b.toNat ++ leBytes 2 c.toNat)
  | .writeMem _ b c => tagByte .writeMem :: (leBytes 4 b.toNat ++ leBytes 4 c.toNat)
  | .readMem _ b c d => tagByte .readMem :: (leBytes 4 b.toNat ++ leBytes 4 c.toNat ++ leBytes 2 d.toNat)
  | .unarySqrt _ b c d => tagByte .unarySqrt :: (leBytes 4 b.toNat ++ leBytes 4 c.toNat ++ leBytes 2 d.toNat)

/-! ### The opcode table's words -/

/-- The length in bytes of the longest instruction (R68, format RS). -/
def longestLength : Nat := 11

/-- The bytes of the instruction whose bits are `w`, bit 0 the least significant bit of the first byte, every bit at
or above `nbits` zero, up to the longest instruction (log 14). -/
def tableBytes (nbits w : Nat) : List Byte := leBytes longestLength (w % 2 ^ nbits)

/-- The instruction the decoder reads from a word of spec/opcode_table.json (log 14). -/
def decodeTableWord (nbits w : Nat) : Option Instr :=
  match decodeBytes (tableBytes nbits w) with
  | .ok (i, _) => some i
  | .error _ => none

end Sys2Proof
end

