-- ==== Sys2Proof/Machine/State.lean ====
section
/-! DEFINITION. The machine's state as plain data, the reasons a step can stop, and the state right after reset
(10_state R20 to R35; INVENTORY.md, State). -/

namespace Sys2Proof.Machine

/-- The data memory: (address, cell) pairs, addresses strictly rising, no zero cell listed; an unlisted address
reads as 0 (R21; log 7). -/
abbrev Memory := List (Nat × Cell)

/-- Why the machine stops with no next state. The block's own faults (R130) are no such stop: they are taken, as a
next state in Faulted (log 1). -/
inductive Fault where
  /-- Raised by the sequencer in a Running state whose cursor lies beyond the end of the buffer, which the spec says
  never occurs (R93). Safe: no run from reset reaches it (log 9). -/
  | cursorPastEnd
  deriving DecidableEq, Repr

/-- Why an instruction has no meaning in this model. -/
inductive Refusal where
  /-- Answered by exec's arm of an instruction that has no meaning yet. Safe. No arm answers it now. -/
  | notModelled (mnemonic : String)
  deriving DecidableEq, Repr

/-- The state of one instance (R20), with the parameters of its step relation and the host's pending requests. -/
structure State where
  /-- CAP, the number of cells; fixed for the life of the instance (R5, R166; log 6). -/
  cap : Nat
  /-- MEM (R21, R22). -/
  mem : Memory
  /-- CUR, the program counter: a byte offset into IBUF (R24). -/
  cur : Nat
  /-- RUNSTATE (R26). -/
  runState : RunState
  /-- FAULT; none is the spec's None (R27). -/
  fault : Option FaultKind
  /-- RANGE_LO, inclusive (R28). -/
  rangeLo : Nat
  /-- RANGE_HI, exclusive (R28). -/
  rangeHi : Nat
  /-- IBUF, the run's immutable input; its length is L (R29). -/
  ibuf : List Byte
  /-- The host's requests still to come, oldest first; the model's own field (log 3). -/
  inputs : List HostInput
  deriving DecidableEq, Repr

/-- The machine right after reset (R34, reset column; R160). RANGE_LO and RANGE_HI are unspecified there: 0 is the
model's value (log 4). IBUF is not yet given: empty (log 5). The host asks for nothing (log 3). -/
def State.reset : State :=
  { cap := Config.capacity
    mem := []
    cur := 0
    runState := .ready
    fault := none
    rangeLo := 0
    rangeHi := 0
    ibuf := []
    inputs := [] }

end Sys2Proof.Machine
end

