-- ==== Sys2Proof/Machine/Ops.lean ====
section
/-! DEFINITION. The named operations over memory, the cursor and the status registers, and taking a fault
(20_memory R47 to R50; 10_state R25; 60_exceptions R138). The machine has no registers (10_state R23) and no return
from a fault (60_exceptions R140). -/

namespace Sys2Proof.Machine

/-! ### Data memory -/

/-- The value of the cell at an address: the listed value, else 0 (R21). -/
def Memory.read : Memory → Nat → Cell
  | [], _ => 0
  | (k, w) :: m, a => if k = a then w else Memory.read m a

/-- The pair placed before the first greater address. -/
def Memory.insert (a : Nat) (v : Cell) : Memory → Memory
  | [] => [(a, v)]
  | (k, w) :: m => if a < k then (a, v) :: (k, w) :: m else (k, w) :: Memory.insert a v m

/-- The memory without any entry for an address. -/
def Memory.erase (m : Memory) (a : Nat) : Memory := m.filter (fun p => p.1 != a)

/-- The memory with one cell replaced; a zero cell is not listed (R50; log 7). -/
def Memory.write (m : Memory) (a : Nat) (v : Cell) : Memory :=
  if v = 0 then m.erase a else (m.erase a).insert a v

/-- The canonical form: addresses strictly rising, no zero cell listed (log 7). -/
abbrev Memory.wf (m : Memory) : Prop :=
  m.Pairwise (fun p q => p.1 < q.1) ∧ ∀ p ∈ m, p.2 ≠ 0

/-! ### State updates -/

/-- The state with its data memory replaced. -/
def State.setMem (s : State) (m : Memory) : State := { s with mem := m }

/-- The value of the cell at an address, no bounds check made. -/
def State.cell (s : State) (a : Nat) : Cell := s.mem.read a

/-- `CUR <- CUR + n` (R25). -/
def State.advance (s : State) (n : Nat) : State := { s with cur := s.cur + n }

/-- `L`, the length of the buffer (R29). -/
def State.len (s : State) : Nat := s.ibuf.length

/-! ### Taking a fault -/

/-- Fault entry: `FAULT <- F`, `RUNSTATE <- Faulted`, nothing else (R95, R138). -/
def State.raise (s : State) (k : FaultKind) : State :=
  { s with fault := some k, runState := .faulted }

/-- The outcome of executing an instruction in `s`: its effect, or the fault it raised taken in `s` itself, so that
nothing of the instruction is applied (R48, R92, R96). -/
def complete (s : State) (effect : Except FaultKind State) :
    Host.Outcome State Fault Refusal :=
  match effect with
  | .ok t => .next t
  | .error k => .next (s.raise k)

/-! ### The primitives of the instruction rules (R49) -/

/-- `check(a)`: the bounds check, on an exact natural number (R47, R49). -/
def check (s : State) (a : Nat) : Except FaultKind Unit :=
  if a < s.cap then .ok () else .error .memoryFault

/-- `MemRead(a, 1)` (R49). -/
def memRead (s : State) (a : Nat) : Except FaultKind Cell :=
  (check s a).bind fun _ => .ok (s.cell a)

/-- `MemWrite(a, 1, v)` (R49). -/
def memWrite (s : State) (a : Nat) (v : Cell) : Except FaultKind State :=
  (check s a).bind fun _ => .ok (s.setMem (s.mem.write a v))

end Sys2Proof.Machine
end

