-- ==== Sys2Proof/Machine/Operands.lean ====
section
/-! DEFINITION. The operand forms and the ALU's functions: the two address sums, the access table, the integer square
root (20_memory R46, R47; 42_arithmetic R120 to R124). -/

namespace Sys2Proof.Machine

/-! ### Addresses -/

/-- An address field as an address: the field's unsigned value (R67). -/
def absolute (x : Addr) : Nat := x.toNat

/-- `C + D`, exact (R47, R121). -/
def basePlusOffset (c : Addr) (d : Off) : Nat := c.toNat + d.toNat

/-- `p + D` for the pointer `p`, a cell's value, exact (R47, R112). -/
def pointerPlusOffset (p : Cell) (d : Off) : Nat := p.toNat + d.toNat

/-- The ALU's 33-bit adder `C + D` (R122, R124). -/
def adder33 (c : Addr) (d : Off) : BitVec 33 := c.setWidth 33 + d.setWidth 33

/-- The ALU's 17-bit adder `rdata + D` (R122, R124). -/
def adder17 (p : Cell) (d : Off) : BitVec 17 := p.setWidth 17 + d.setWidth 17

/-- The one address an instruction writes (R46, column Write). -/
def writeAddress : Instr → Nat
  | .loadConst _ b _ => absolute b
  | .writeMem _ b _ => absolute b
  | .readMem _ b _ _ => absolute b
  | .unarySqrt _ _ c d => basePlusOffset c d

/-- The addresses an instruction reads, in order (R46, column Reads). -/
def readAddresses (s : State) : Instr → List Nat
  | .loadConst _ _ _ => []
  | .writeMem _ _ c => [absolute c]
  | .readMem _ _ c d => [absolute c, pointerPlusOffset (s.cell (absolute c)) d]
  | .unarySqrt _ b _ _ => [absolute b]

/-- The addresses an instruction bounds-checks (R46, last column). -/
def checkedAddresses (s : State) (i : Instr) : List Nat :=
  writeAddress i :: readAddresses s i

/-! ### Integer square root -/

/-- The digit-by-digit method: try the bits `2^(k-1)` down to `2^0` on top of `r` (R123). -/
def isqrtDigits (v : Nat) : Nat → Nat → Nat
  | 0, r => r
  | k + 1, r => isqrtDigits v k (if (r + 2 ^ k) * (r + 2 ^ k) ≤ v then r + 2 ^ k else r)

/-- `isqrt(n)`, the floor square root of any natural number: one digit for every two bits of `n` (R120; log 15). -/
def isqrt (n : Nat) : Nat := isqrtDigits n (Nat.log2 n / 2 + 1) 0

/-- The 8-iteration circuit for a 16-bit input (R123). -/
def isqrt16 (v : Cell) : Nat := isqrtDigits v.toNat 8 0

/-- The ALU's square root of a cell, as a cell (R121). -/
def sqrtCell (v : Cell) : Cell := BitVec.ofNat 16 (isqrt v.toNat)

end Sys2Proof.Machine
end

