-- ==== Sys2Proof/Machine/Arithmetic.lean ====
section
/-! DEFINITION. The meaning of UNARY_SQRT (42_arithmetic R121, R125). -/

namespace Sys2Proof.Machine

/-- UNARY_SQRT (R121): `MEM[C + D] <- isqrt(MEM[B])`. B is the source; C alone is no address and is not checked. -/
def execUnarySqrt (_a : Tag) (b c : Addr) (d : Off) (s : State) : Host.Outcome State Fault Refusal :=
  complete s do
    check s (absolute b)
    check s (basePlusOffset c d)
    let v ← memRead s (absolute b)
    memWrite s (basePlusOffset c d) (sqrtCell v)

end Sys2Proof.Machine
end

