-- ==== Sys2Proof/Machine/DataMovement.lean ====
section
/-! DEFINITION. The meanings of LOAD_CONST, WRITE_MEM and READ_MEM (41_data_movement R110 to R113): `execute(instr)`, called
after the cursor has been advanced past the instruction. -/

namespace Sys2Proof.Machine

/-- LOAD_CONST (R110): `MEM[B] <- C`. -/
def execLoadConst (_a : Tag) (b : Addr) (c : Imm) (s : State) : Host.Outcome State Fault Refusal :=
  complete s do
    check s (absolute b)
    memWrite s (absolute b) c

/-- WRITE_MEM (R111): `MEM[B] <- MEM[C]`. -/
def execWriteMem (_a : Tag) (b c : Addr) (s : State) : Host.Outcome State Fault Refusal :=
  complete s do
    check s (absolute b)
    check s (absolute c)
    let v ← memRead s (absolute c)
    memWrite s (absolute b) v

/-- READ_MEM (R112): `MEM[B] <- MEM[MEM[C] + D]`. -/
def execReadMem (_a : Tag) (b c : Addr) (d : Off) (s : State) : Host.Outcome State Fault Refusal :=
  complete s do
    check s (absolute b)
    check s (absolute c)
    let p ← memRead s (absolute c)
    check s (pointerPlusOffset p d)
    let v ← memRead s (pointerPlusOffset p d)
    memWrite s (absolute b) v

end Sys2Proof.Machine
end

