-- ==== Sys2Proof/Machine/Dispatch.lean ====
section
/-! DEFINITION. `execute`: one arm per instruction, each a direct call of its meaning (40_sequencer R92). -/

namespace Sys2Proof.Machine

def exec (i : Instr) (s : State) : Host.Outcome State Fault Refusal :=
  match i with
  | .loadConst a b c => Sys2Proof.Machine.execLoadConst a b c s
  | .writeMem a b c => Sys2Proof.Machine.execWriteMem a b c s
  | .readMem a b c d => Sys2Proof.Machine.execReadMem a b c d s
  | .unarySqrt a b c d => Sys2Proof.Machine.execUnarySqrt a b c d s

end Sys2Proof.Machine
end

