-- ==== Sys2Proof/Machine/Flags.lean ====
section
/-! DEFINITION. The machine has no flags and no condition codes (10_state R30), so no instruction computes one. Its only
status is RUNSTATE and FAULT; here are their 2-bit codes (10_state R26, R27; 60_exceptions R135; log 16). -/

namespace Sys2Proof.Machine

/-- RUNSTATE as a 2-bit field (R26). -/
def runStateCode : RunState → BitVec 2
  | .ready => 0
  | .running => 1
  | .halted => 2
  | .faulted => 3

/-- FAULT as a 2-bit field (R27, R135). -/
def faultCode : Option FaultKind → BitVec 2
  | none => 0
  | some .unknownOpcode => 1
  | some .truncatedStream => 2
  | some .memoryFault => 3

end Sys2Proof.Machine
end

