-- ==== Sys2Proof/Machine/Sequencer.lean ====
section
/-! DEFINITION. The sequencer: reset, start, the fetch-decode-execute step, finish and export, the run state machine and
the block's outputs (40_sequencer R90 to R103; 70_reset_and_hazards R160, R161, R167). -/

namespace Sys2Proof.Machine

/-! ### The host's requests -/

/-- The request the host makes now; none listed means none made (log 3). -/
def State.input (s : State) : HostInput := s.inputs.headD .idle

/-- The state with the request it makes now taken. -/
def State.popInput (s : State) : State := { s with inputs := s.inputs.tail }

/-- Reset: the reset column of R34 from any state; CAP and the requests still to come stay (R160; logs 4 to 6). -/
def State.resetCore (s : State) : State :=
  { State.reset with cap := s.cap, inputs := s.inputs }

/-- Start, accepted in Ready only (R91); elsewhere ignored (R91, D23). -/
def State.start (s : State) (ibuf : List Byte) (lo hi : Nat) : State :=
  if s.runState = .ready then
    { s with
      mem := []
      cur := 0
      rangeLo := lo
      rangeHi := hi
      fault := none
      runState := .running
      ibuf := ibuf }
  else s

/-- The host's side of `run(...)`: the start request for export bounds that may be negative; a negative bound is a
MemoryFault and starts nothing (R28, R167; log 24). -/
def hostRunRequest (ibuf : List Byte) (lo hi : Int) : Except FaultKind HostInput :=
  if lo < 0 ∨ hi < 0 then .error .memoryFault else .ok (.start ibuf lo.toNat hi.toNat)

/-! ### Finish and export -/

/-- `finish()`: at the end of the buffer, Halted if the export range is valid, else a MemoryFault (R93, R94; log 18). -/
def State.finish (s : State) : State :=
  if s.rangeLo ≤ s.rangeHi ∧ s.rangeHi ≤ s.cap then { s with runState := .halted }
  else s.raise .memoryFault

/-- The result slice, presented in Halted only: (address, value) pairs in ascending address order (R35, R94; log 12). -/
def State.result (s : State) : Option (List (Nat × Cell)) :=
  if s.runState = .halted then
    some ((List.range' s.rangeLo (s.rangeHi - s.rangeLo)).map fun a => (a, s.cell a))
  else none

/-- What the host can read of the block (R103). -/
structure Outputs where
  runState : BitVec 2
  fault : BitVec 2
  result : Option (List (Nat × Cell))
  deriving DecidableEq, Repr

/-- The block's outputs (R103). -/
def State.outputs (s : State) : Outputs :=
  { runState := runStateCode s.runState
    fault := faultCode s.fault
    result := s.result }

/-! ### One step -/

/-- One step of the sequencer in Running (R92). A cursor beyond the end, which R93 rules out, stops by name (log 9). -/
def runStep (s : State) : Host.Outcome State Fault Refusal :=
  if s.cur = s.len then .next s.finish
  else if s.len < s.cur then .fault .cursorPastEnd
  else
    match decode s.ibuf s.cur with
    | .error k => .next (s.raise k)
    | .ok (i, n) => exec i (s.advance n)

/-- One transition of the block: the host's request now, or else the sequencer's step. Where the run state machine has
no edge nothing changes (R97; log 2). -/
def transition (s : State) : Host.Outcome State Fault Refusal :=
  match s.input with
  | .reset => .next s.popInput.resetCore
  | .start ibuf lo hi => .next (s.popInput.start ibuf lo hi)
  | .idle => if s.runState = .running then runStep s.popInput else .next s.popInput

/-- `s` with bytes stored in the instruction buffer at the cursor, Running with no fault, and the sequencer's turn next:
what a start with those bytes in the buffer leaves for the very next step (log 14). -/
def State.withFetchBytes (s : State) (bs : List Byte) : State :=
  { s with
    ibuf := s.ibuf.take s.cur ++ List.replicate (s.cur - s.len) 0 ++ bs ++ s.ibuf.drop (s.cur + bs.length)
    runState := .running
    fault := none
    inputs := .idle :: s.inputs }

end Sys2Proof.Machine
end

