-- ==== Sys2Proof/Machine/Assembler.lean ====
section
/-! DEFINITION. The assembler's text syntax and its output (30_encoding R78 to R83; 92_eei_decisions D13 to D15, D22). It is
software outside the block (00_scope R4): the step function does not use it. -/

namespace Sys2Proof.Machine

/-- The assembler's one error (R79); it never appears in FAULT (60_exceptions R134). -/
inductive AsmError where
  | parseError
  deriving DecidableEq, Repr

/-- The operand keys (R78). -/
inductive Key where
  | a
  | b
  | c
  | d
  deriving DecidableEq, Repr

/-- The audit record of one instruction: its index and its operands as written (R83; log 22). -/
structure AuditRecord where
  index : Nat
  operands : List (Key × Int)
  deriving DecidableEq, Repr

/-! ### Lines and tokens -/

/-- The lines of a text; a line terminator at the very end makes no further line (D15; log 21). `acc` is the line read
so far, reversed. -/
def splitLines : List Char → List Char → List (List Char)
  | [], acc => if acc.isEmpty then [] else [acc.reverse]
  | ch :: cs, acc => if ch = '\n' then acc.reverse :: splitLines cs [] else splitLines cs (ch :: acc)

/-- The tokens of a line, separated by one or more spaces or tabs (D15). `acc` is the token read so far, reversed. -/
def splitTokens : List Char → List Char → List (List Char)
  | [], acc => if acc.isEmpty then [] else [acc.reverse]
  | ch :: cs, acc =>
    if ch = ' ' ∨ ch = '\t' then
      if acc.isEmpty then splitTokens cs [] else acc.reverse :: splitTokens cs []
    else splitTokens cs (ch :: acc)

/-- The value of a decimal digit. -/
def digitValue (ch : Char) : Option Nat :=
  if '0' ≤ ch ∧ ch ≤ '9' then some (ch.toNat - '0'.toNat) else none

/-- The value of a run of decimal digits, `n` read so far. -/
def digitsValue : List Char → Nat → Option Nat
  | [], n => some n
  | ch :: cs, n => (digitValue ch).bind fun k => digitsValue cs (10 * n + k)

/-- One digit or more; leading zeros are accepted (D15). -/
def naturalValue (cs : List Char) : Option Nat := if cs.isEmpty then none else digitsValue cs 0

/-- A decimal integer with an optional sign (R78, D15). -/
def integerValue : List Char → Option Int
  | '-' :: cs => (naturalValue cs).map fun n => -(n : Int)
  | '+' :: cs => (naturalValue cs).map fun n => (n : Int)
  | cs => (naturalValue cs).map fun n => (n : Int)

/-- An operand key, upper case (R78, D15). -/
def keyOf : List Char → Option Key
  | ['A'] => some .a
  | ['B'] => some .b
  | ['C'] => some .c
  | ['D'] => some .d
  | _ => none

/-- An operand token `key=integer`; a token without `=` is refused (R79). -/
def parseOperand (tok : List Char) : Option (Key × Int) :=
  match tok.dropWhile (· != '=') with
  | _ :: val => (keyOf (tok.takeWhile (· != '='))).bind fun k => (integerValue val).map fun v => (k, v)
  | [] => none

/-- The four mnemonics, case-sensitive (R78, R82, D15). -/
def mnemonicOf (tok : List Char) : Option Opcode :=
  if tok = "LOAD_CONST".toList then some .loadConst
  else if tok = "WRITE_MEM".toList then some .writeMem
  else if tok = "READ_MEM".toList then some .readMem
  else if tok = "UNARY_SQRT".toList then some .unarySqrt
  else none

/-! ### Operands -/

/-- The keys an operation requires, and the only ones it takes (R78, D15). -/
def requiredKeys : Opcode → List Key
  | .loadConst => [.a, .b, .c]
  | .writeMem => [.a, .b, .c]
  | .readMem => [.a, .b, .c, .d]
  | .unarySqrt => [.a, .b, .c, .d]

/-- A field of `w` bits holds `v mod 2^w` for `-(2^(w-1)) <= v <= 2^w - 1`; any other value is refused (R80, D14). -/
def fieldOf (w : Nat) (v : Int) : Option (BitVec w) :=
  if -(2 ^ (w - 1) : Int) ≤ v ∧ v ≤ (2 ^ w : Int) - 1 then some (BitVec.ofInt w v) else none

/-- Operand A: its field must be the mnemonic's tag (R81, D13; log 19). -/
def tagField (op : Opcode) (v : Int) : Option Tag :=
  (fieldOf 7 v).bind fun a => if a = op.tag then some a else none

/-- The instruction an operation's operand values spell (R73, R80). -/
def buildInstr (op : Opcode) (ops : List (Key × Int)) : Option Instr := do
  let a ← tagField op (← ops.lookup .a)
  let b ← fieldOf 32 (← ops.lookup .b)
  let c ← ops.lookup .c
  match op with
  | .loadConst => return .loadConst a b (← fieldOf 16 c)
  | .writeMem => return .writeMem a b (← fieldOf 32 c)
  | .readMem => return .readMem a b (← fieldOf 32 c) (← fieldOf 16 (← ops.lookup .d))
  | .unarySqrt => return .unarySqrt a b (← fieldOf 32 c) (← fieldOf 16 (← ops.lookup .d))

/-- Whether the keys given are the required ones, each once, in any order (R78, R79, D15). -/
def keysComplete (op : Opcode) (keys : List Key) : Bool :=
  keys.Nodup && (requiredKeys op).all (· ∈ keys) && keys.all (· ∈ requiredKeys op)

/-- One line: its instruction and its operands as written (R78, R79). -/
def parseLine (line : List Char) : Except AsmError (Instr × List (Key × Int)) :=
  let parsed : Option (Instr × List (Key × Int)) :=
    match splitTokens line [] with
    | [] => none
    | mnemonic :: toks => do
      let op ← mnemonicOf mnemonic
      let ops ← toks.mapM parseOperand
      if keysComplete op (ops.map Prod.fst) then
        let i ← buildInstr op ops
        return (i, ops)
      else none
  parsed.elim (.error .parseError) .ok

/-! ### The whole text -/

/-- The bytes and the audit records of a list of lines, the next record's index being `k` (R60, R83; log 22). -/
def assembleLines : Nat → List (List Char) → Except AsmError (List Byte × List AuditRecord)
  | _, [] => .ok ([], [])
  | k, line :: lines => do
    let (i, ops) ← parseLine line
    let (bytes, records) ← assembleLines (k + 1) lines
    return (encode i ++ bytes, { index := k, operands := ops } :: records)

/-- `assemble`: the binary artifact and the audit trail of a text (R60, R73, R78, R83). -/
def assemble (text : String) : Except AsmError (List Byte × List AuditRecord) :=
  assembleLines 0 (splitLines text.toList [])

end Sys2Proof.Machine
end

