-- ==== Sys2Proof/Safety.lean ====
section
/-! DEFINITION. The terms the statements about the machine use: the invariant, a run's end, and what "everything else
unchanged" and "stopped by a fault" mean. -/

namespace Sys2Proof.Machine

/-- Every listed cell lies inside the data memory (20_memory R51). -/
abbrev State.memInRange (s : State) : Prop := ∀ p ∈ s.mem, p.1 < s.cap

/-- The invariant of the machine: CAP is positive (00_scope R5); the memory is canonical and inside CAP (R21, R51);
`CUR <= L` (R24); FAULT is None exactly outside Faulted (R27); Halted is reached only at the end of the buffer with a
valid export range (R93, R94); in Ready nothing has run (R34). -/
structure State.Inv (s : State) : Prop where
  cap_pos : 1 ≤ s.cap
  mem_wf : s.mem.wf
  mem_inRange : s.memInRange
  cur_le : s.cur ≤ s.len
  fault_iff : s.fault.isSome ↔ s.runState = .faulted
  halted_done : s.runState = .halted → s.cur = s.len ∧ s.rangeLo ≤ s.rangeHi ∧ s.rangeHi ≤ s.cap
  ready_fresh : s.runState = .ready → s.mem = [] ∧ s.cur = 0

/-- The end of a run: Halted or Faulted (40_sequencer R101). -/
abbrev State.terminal (s : State) : Prop := s.runState = .halted ∨ s.runState = .faulted

/-- The two states agree in everything but the data memory. -/
structure SameButMem (s t : State) : Prop where
  cap : t.cap = s.cap
  cur : t.cur = s.cur
  runState : t.runState = s.runState
  fault : t.fault = s.fault
  rangeLo : t.rangeLo = s.rangeLo
  rangeHi : t.rangeHi = s.rangeHi
  ibuf : t.ibuf = s.ibuf
  inputs : t.inputs = s.inputs

/-- `t` is `s` stopped by the fault `k`: FAULT and RUNSTATE say so, everything else is as in `s` (R95, R138). -/
structure StoppedBy (k : FaultKind) (s t : State) : Prop where
  runState : t.runState = .faulted
  fault : t.fault = some k
  mem : t.mem = s.mem
  cap : t.cap = s.cap
  cur : t.cur = s.cur
  rangeLo : t.rangeLo = s.rangeLo
  rangeHi : t.rangeHi = s.rangeHi
  ibuf : t.ibuf = s.ibuf
  inputs : t.inputs = s.inputs

/-- The cell at `a` holds `v` in `t`, and every other cell is as in `s`. -/
abbrev CellReplaced (s t : State) (a : Nat) (v : Cell) : Prop :=
  ∀ x : Nat, t.cell x = if x = a then v else s.cell x

/-- The sequencer's turn: Running, and the host asks for nothing now (R92). -/
abbrev State.turn (s : State) : Prop := s.runState = .running ∧ s.input = .idle

end Sys2Proof.Machine
end

