-- ==== Sys2Proof/Certificates/Slice0/Obligations.lean ====
section
/-! DEFINITION. The statements for the provers, each from a rule of spec/ its docstring names. -/

open Sys2Proof Sys2Proof.Machine

/-! ### Codec -/

/-- 95_test_vectors §2.1: the words written out from the formats of 30_encoding R65 to R67 decode to the instructions
they stand for. The place of B, C and D in the bytes is the spec's decision D1 (log 10). -/
def Obligations.WrittenOutWordsDecode : Prop :=
  decodeBytes [0x5E, 0x78, 0x56, 0x34, 0x12, 0xCD, 0xAB]
    = .ok (.loadConst 94 0x12345678 0xABCD, 7) ∧
  decodeBytes [0x58, 0x78, 0x56, 0x34, 0x12, 0xF0, 0xDE, 0xBC, 0x9A]
    = .ok (.writeMem 88 0x12345678 0x9ABCDEF0, 9) ∧
  decodeBytes [0x09, 0x78, 0x56, 0x34, 0x12, 0xF0, 0xDE, 0xBC, 0x9A, 0xEF, 0xBE]
    = .ok (.readMem 9 0x12345678 0x9ABCDEF0 0xBEEF, 11) ∧
  decodeBytes [0x22, 0x78, 0x56, 0x34, 0x12, 0xF0, 0xDE, 0xBC, 0x9A, 0xEF, 0xBE]
    = .ok (.unarySqrt 34 0x12345678 0x9ABCDEF0 0xBEEF, 11)

/-- 30_encoding R74, S-P1: whatever follows it, the encoding of a well-formed instruction decodes to that instruction,
and it has, and the decoder consumes, exactly the table's length. -/
def Obligations.DecodeOfEncodeIsTheInstruction : Prop :=
  ∀ (i : Instr) (rest : List Byte), i.wellFormed = true →
    decodeBytes (encode i ++ rest) = .ok (i, (encode i).length) ∧
    (encode i).length =
      match i with
      | .loadConst .. => 7
      | .writeMem .. => 9
      | .readMem .. => 11
      | .unarySqrt .. => 11

/-- 30_encoding R74, its inference about the converse: re-encoding a decoded instruction gives back the bytes it was
decoded from with bit 7 of byte 0 cleared, so it gives back those very bytes exactly when that bit is 0.
The 0 the encoder writes there is the spec's decision D2. -/
def Obligations.EncodeOfDecodeClearsBitSeven : Prop :=
  ∀ (b0 : Byte) (rest : List Byte) (i : Instr) (n : Nat), decodeBytes (b0 :: rest) = .ok (i, n) →
    encode i = (b0 &&& 0x7F) :: rest.take (n - 1) ∧
    (encode i = (b0 :: rest).take n ↔ b0.getLsbD 7 = false)

/-- 30_encoding R62, R63: bit 7 of byte 0 is ignored on decode. -/
def Obligations.DecodeIgnoresBitSeven : Prop :=
  ∀ (b0 : Byte) (rest : List Byte),
    decodeBytes ((b0 ||| 0x80) :: rest) = decodeBytes ((b0 &&& 0x7F) :: rest)

/-- 30_encoding R68: the length table. A known tag selects its operation and its length, the decoded A is the tag, and
any other tag selects nothing; S-P2: no byte past the length is read. -/
def Obligations.LengthTable : Prop :=
  ∀ (b0 : Byte) (rest : List Byte),
    (tagOf b0 = 94 → 7 ≤ (b0 :: rest).length →
      ∃ b c, decodeBytes (b0 :: rest) = .ok (.loadConst 94 b c, 7) ∧
        ∀ tail, decodeBytes ((b0 :: rest).take 7 ++ tail) = .ok (.loadConst 94 b c, 7)) ∧
    (tagOf b0 = 88 → 9 ≤ (b0 :: rest).length →
      ∃ b c, decodeBytes (b0 :: rest) = .ok (.writeMem 88 b c, 9) ∧
        ∀ tail, decodeBytes ((b0 :: rest).take 9 ++ tail) = .ok (.writeMem 88 b c, 9)) ∧
    (tagOf b0 = 9 → 11 ≤ (b0 :: rest).length →
      ∃ b c d, decodeBytes (b0 :: rest) = .ok (.readMem 9 b c d, 11) ∧
        ∀ tail, decodeBytes ((b0 :: rest).take 11 ++ tail) = .ok (.readMem 9 b c d, 11)) ∧
    (tagOf b0 = 34 → 11 ≤ (b0 :: rest).length →
      ∃ b c d, decodeBytes (b0 :: rest) = .ok (.unarySqrt 34 b c d, 11) ∧
        ∀ tail, decodeBytes ((b0 :: rest).take 11 ++ tail) = .ok (.unarySqrt 34 b c d, 11)) ∧
    (tagOf b0 ≠ 94 → tagOf b0 ≠ 88 → tagOf b0 ≠ 9 → tagOf b0 ≠ 34 →
      decodeBytes (b0 :: rest) = .error .unknownOpcode)

/-- 30_encoding R65, R66, R67 with R43: where each operand stands and that it is little-endian and unsigned. The places
are the spec's decision D1 (log 10). -/
def Obligations.OperandFieldPlaces : Prop :=
  ∀ (b0 b1 b2 b3 b4 b5 b6 b7 b8 b9 b10 : Byte) (rest : List Byte),
    (tagOf b0 = 94 → ∃ b c,
      decodeBytes ([b0, b1, b2, b3, b4, b5, b6] ++ rest) = .ok (.loadConst 94 b c, 7) ∧
      b.toNat = b1.toNat + b2.toNat * 256 + b3.toNat * 256 ^ 2 + b4.toNat * 256 ^ 3 ∧
      c.toNat = b5.toNat + b6.toNat * 256) ∧
    (tagOf b0 = 88 → ∃ b c,
      decodeBytes ([b0, b1, b2, b3, b4, b5, b6, b7, b8] ++ rest) = .ok (.writeMem 88 b c, 9) ∧
      b.toNat = b1.toNat + b2.toNat * 256 + b3.toNat * 256 ^ 2 + b4.toNat * 256 ^ 3 ∧
      c.toNat = b5.toNat + b6.toNat * 256 + b7.toNat * 256 ^ 2 + b8.toNat * 256 ^ 3) ∧
    (tagOf b0 = 9 → ∃ b c d,
      decodeBytes ([b0, b1, b2, b3, b4, b5, b6, b7, b8, b9, b10] ++ rest) = .ok (.readMem 9 b c d, 11) ∧
      b.toNat = b1.toNat + b2.toNat * 256 + b3.toNat * 256 ^ 2 + b4.toNat * 256 ^ 3 ∧
      c.toNat = b5.toNat + b6.toNat * 256 + b7.toNat * 256 ^ 2 + b8.toNat * 256 ^ 3 ∧
      d.toNat = b9.toNat + b10.toNat * 256) ∧
    (tagOf b0 = 34 → ∃ b c d,
      decodeBytes ([b0, b1, b2, b3, b4, b5, b6, b7, b8, b9, b10] ++ rest) = .ok (.unarySqrt 34 b c d, 11) ∧
      b.toNat = b1.toNat + b2.toNat * 256 + b3.toNat * 256 ^ 2 + b4.toNat * 256 ^ 3 ∧
      c.toNat = b5.toNat + b6.toNat * 256 + b7.toNat * 256 ^ 2 + b8.toNat * 256 ^ 3 ∧
      d.toNat = b9.toNat + b10.toNat * 256)

/-- 41_data_movement R113 (a), 30_encoding R69: what the decoder accepts is well formed (A is the operation's tag), has
the table's length and lies inside the buffer. -/
def Obligations.DecodedInstructionIsWellFormed : Prop :=
  ∀ (ibuf : List Byte) (c : Nat) (i : Instr) (n : Nat), decode ibuf c = .ok (i, n) →
    i.wellFormed = true ∧ n = i.length ∧ (n = 7 ∨ n = 9 ∨ n = 11) ∧ c + n ≤ ibuf.length

/-! ### The two decode faults -/

/-- 30_encoding R70, 60_exceptions R131: UnknownOpcode exactly when the byte at the cursor carries none of the four
tags, whatever follows it; the run is then stopped with the cursor on that byte and the memory as it was. -/
def Obligations.UnknownOpcodeExactlyForUnknownTags : Prop :=
  (∀ (b0 : Byte) (rest : List Byte),
    decodeBytes (b0 :: rest) = .error .unknownOpcode ↔
      tagOf b0 ≠ 94 ∧ tagOf b0 ≠ 88 ∧ tagOf b0 ≠ 9 ∧ tagOf b0 ≠ 34) ∧
  (∀ (s : State) (b0 : Byte), s.turn → s.ibuf[s.cur]? = some b0 →
    tagOf b0 ≠ 94 → tagOf b0 ≠ 88 → tagOf b0 ≠ 9 → tagOf b0 ≠ 34 →
    ∃ t, step s = .next t ∧ StoppedBy .unknownOpcode s.popInput t)

/-- 30_encoding R71, 60_exceptions R132: TruncatedStream exactly when the tag is known and fewer bytes remain than its
length; the run is then stopped with the cursor on the tag byte and the memory as it was. No byte at all is no
truncation: the step finishes the run (the decoder by itself answers TruncatedStream there, the spec's decision D16). -/
def Obligations.TruncatedStreamExactlyForShortTails : Prop :=
  (∀ (b0 : Byte) (rest : List Byte),
    decodeBytes (b0 :: rest) = .error .truncatedStream ↔
      (tagOf b0 = 94 ∧ (b0 :: rest).length < 7) ∨ (tagOf b0 = 88 ∧ (b0 :: rest).length < 9) ∨
      (tagOf b0 = 9 ∧ (b0 :: rest).length < 11) ∨ (tagOf b0 = 34 ∧ (b0 :: rest).length < 11)) ∧
  (∀ (s : State) (b0 : Byte), s.turn → s.ibuf[s.cur]? = some b0 →
    ((tagOf b0 = 94 ∧ s.len - s.cur < 7) ∨ (tagOf b0 = 88 ∧ s.len - s.cur < 9) ∨
      (tagOf b0 = 9 ∧ s.len - s.cur < 11) ∨ (tagOf b0 = 34 ∧ s.len - s.cur < 11)) →
    ∃ t, step s = .next t ∧ StoppedBy .truncatedStream s.popInput t) ∧
  (∀ s : State, s.turn → s.cur = s.len → step s = .next s.popInput.finish)

/-! ### Memory -/

/-- 20_memory R49: check, MemRead and MemWrite. Inside the capacity a read gives the cell and a write replaces that one
cell, which then reads as the value written; outside it all three raise MemoryFault; a memory nothing was written to
reads 0. -/
def Obligations.MemoryPrimitives : Prop :=
  (∀ (s : State) (a : Nat) (v : Cell),
    (a < s.cap →
      check s a = .ok () ∧ memRead s a = .ok (s.cell a) ∧
      ∃ t, memWrite s a v = .ok t ∧ CellReplaced s t a v ∧ SameButMem s t ∧ memRead t a = .ok v) ∧
    (s.cap ≤ a →
      check s a = .error .memoryFault ∧ memRead s a = .error .memoryFault ∧
      memWrite s a v = .error .memoryFault)) ∧
  (∀ (s : State) (a : Nat), s.mem = [] → s.cell a = 0)

/-! ### The four instructions -/

/-- 41_data_movement R110: `MEM[B] <- C`, all else unchanged; MemoryFault exactly when `B >= CAP`. -/
def Obligations.LoadConstStoresImmediate : Prop :=
  ∀ (s : State) (a : Tag) (b : Addr) (c : Imm),
    (absolute b < s.cap →
      ∃ t, exec (.loadConst a b c) s = .next t ∧ CellReplaced s t (absolute b) c ∧ SameButMem s t) ∧
    (s.cap ≤ absolute b →
      ∃ t, exec (.loadConst a b c) s = .next t ∧ StoppedBy .memoryFault s t)

/-- 41_data_movement R111: `MEM[B] <- MEM[C]`, all else unchanged; MemoryFault exactly when `B >= CAP` or `C >= CAP`. -/
def Obligations.WriteMemCopiesCell : Prop :=
  ∀ (s : State) (a : Tag) (b c : Addr),
    (absolute b < s.cap → absolute c < s.cap →
      ∃ t, exec (.writeMem a b c) s = .next t ∧
        CellReplaced s t (absolute b) (s.cell (absolute c)) ∧ SameButMem s t) ∧
    (s.cap ≤ absolute b ∨ s.cap ≤ absolute c →
      ∃ t, exec (.writeMem a b c) s = .next t ∧ StoppedBy .memoryFault s t)

/-- 41_data_movement R112: `MEM[B] <- MEM[MEM[C] + D]`, the sum exact and both reads of the old contents, all else
unchanged; MemoryFault exactly when `B >= CAP`, `C >= CAP` or `MEM[C] + D >= CAP`. -/
def Obligations.ReadMemCopiesThroughPointer : Prop :=
  ∀ (s : State) (a : Tag) (b c : Addr) (d : Off),
    (absolute b < s.cap → absolute c < s.cap → (s.cell (absolute c)).toNat + d.toNat < s.cap →
      ∃ t, exec (.readMem a b c d) s = .next t ∧
        CellReplaced s t (absolute b) (s.cell ((s.cell (absolute c)).toNat + d.toNat)) ∧ SameButMem s t) ∧
    (s.cap ≤ absolute b ∨ s.cap ≤ absolute c ∨ s.cap ≤ (s.cell (absolute c)).toNat + d.toNat →
      ∃ t, exec (.readMem a b c d) s = .next t ∧ StoppedBy .memoryFault s t)

/-- 42_arithmetic R121: `MEM[C + D] <- isqrt(MEM[B])` with the sum exact and the root the floor square root, all else
unchanged; MemoryFault exactly when `B >= CAP` or `C + D >= CAP`. -/
def Obligations.UnarySqrtStoresFloorRoot : Prop :=
  ∀ (s : State) (a : Tag) (b c : Addr) (d : Off),
    (absolute b < s.cap → basePlusOffset c d < s.cap →
      ∃ t r, exec (.unarySqrt a b c d) s = .next t ∧
        r * r ≤ (s.cell (absolute b)).toNat ∧ (s.cell (absolute b)).toNat < (r + 1) * (r + 1) ∧ r ≤ 255 ∧
        CellReplaced s t (basePlusOffset c d) (BitVec.ofNat 16 r) ∧ SameButMem s t) ∧
    (s.cap ≤ absolute b ∨ s.cap ≤ basePlusOffset c d →
      ∃ t, exec (.unarySqrt a b c d) s = .next t ∧ StoppedBy .memoryFault s t)

/-- 20_memory R46, R48 and 41_data_movement R113 (c) to (e), for every instruction: with every checked address inside
the capacity exactly the one cell of the access table is written and nothing else changes; with any outside it nothing
of the instruction is applied and the one fault is MemoryFault. -/
def Obligations.ExecWritesItsOneCellOrFaults : Prop :=
  ∀ (i : Instr) (s : State),
    ((∀ x ∈ checkedAddresses s i, x < s.cap) →
      ∃ t v, exec i s = .next t ∧ CellReplaced s t (writeAddress i) v ∧ SameButMem s t) ∧
    ((∃ x ∈ checkedAddresses s i, s.cap ≤ x) →
      ∃ t, exec i s = .next t ∧ StoppedBy .memoryFault s t)

/-- 41_data_movement R113 (b): what an instruction does to the memory, and whether it faults, depends on the memory and
on CAP only, not on RUNSTATE, FAULT, the export range, IBUF or CUR. -/
def Obligations.ExecDependsOnMemoryAndCapacityOnly : Prop :=
  ∀ (i : Instr) (s s' : State), s'.cap = s.cap → s'.mem = s.mem →
    ∃ t t', exec i s = .next t ∧ exec i s' = .next t' ∧ t'.mem = t.mem ∧
      ((SameButMem s t ∧ SameButMem s' t') ∨
        (StoppedBy .memoryFault s t ∧ StoppedBy .memoryFault s' t'))

/-- 41_data_movement R113 (a): operand A takes no part in execution. -/
def Obligations.OperandATakesNoPartInExecution : Prop :=
  ∀ (s : State) (a a' : Tag) (b c : Addr) (d : Off),
    exec (.loadConst a b d) s = exec (.loadConst a' b d) s ∧
    exec (.writeMem a b c) s = exec (.writeMem a' b c) s ∧
    exec (.readMem a b c d) s = exec (.readMem a' b c d) s ∧
    exec (.unarySqrt a b c d) s = exec (.unarySqrt a' b c d) s

/-! ### Arithmetic -/

/-- 42_arithmetic R120: isqrt is the floor square root, the only number that is one, with the facts and the table of
corner values the rule lists. -/
def Obligations.IsqrtIsFloorSquareRoot : Prop :=
  (∀ n : Nat,
    isqrt n * isqrt n ≤ n ∧ n < (isqrt n + 1) * (isqrt n + 1) ∧
    (∀ r, r * r ≤ n → n < (r + 1) * (r + 1) → r = isqrt n) ∧
    isqrt n ≤ n ∧ (2 ≤ n → isqrt n < n) ∧ (∀ m, m ≤ n → isqrt m ≤ isqrt n) ∧
    (n ≤ 65535 → isqrt n ≤ 255)) ∧
  [0, 1, 2, 3, 4, 8, 9, 15, 16, 17, 24, 25, 99, 100, 255, 256].map isqrt
    = [0, 1, 1, 1, 2, 2, 3, 3, 4, 4, 4, 5, 9, 10, 15, 16] ∧
  [1023, 1024, 4095, 4096, 16383, 16384, 65024, 65025, 65534, 65535].map isqrt
    = [31, 32, 63, 64, 127, 128, 254, 255, 255, 255]

/-- 42_arithmetic R123: the 8-iteration digit-by-digit circuit computes isqrt on every cell. The rule is informative and
comes from general knowledge (the spec's passage G2). -/
def Obligations.DigitCircuitComputesIsqrt : Prop :=
  ∀ v : Cell, isqrt16 v = isqrt v.toNat ∧ (sqrtCell v).toNat = isqrt v.toNat

/-- 42_arithmetic R122, 20_memory R47: the 33-bit and the 17-bit address adders give the exact sums. -/
def Obligations.AddressAddersAreExact : Prop :=
  ∀ (c : Addr) (p : Cell) (d : Off),
    (adder33 c d).toNat = basePlusOffset c d ∧ (adder17 p d).toNat = pointerPlusOffset p d

/-! ### The sequencer -/

/-- 40_sequencer R92: one step in Running. At the end of the buffer it finishes; if decode raises, the fault is taken
with the cursor unchanged; else the cursor advances by the decoded length and the instruction is executed. The step
takes the host's request of this moment (none) out of the list of requests (log 3). -/
def Obligations.StepRunsDecodedInstruction : Prop :=
  ∀ s : State, s.turn →
    (s.cur = s.len → step s = .next s.popInput.finish) ∧
    (∀ k, s.cur < s.len → decode s.ibuf s.cur = .error k → step s = .next (s.popInput.raise k)) ∧
    (∀ i n, decode s.ibuf s.cur = .ok (i, n) → step s = exec i (s.popInput.advance n))

/-- 10_state R25: CUR advances by the decoded length exactly when decode succeeds, whether or not the instruction then
faults; no instruction writes it; a decode that raises leaves it. -/
def Obligations.CursorAdvancesByDecodedLength : Prop :=
  (∀ (s : State) (i : Instr) (n : Nat), s.turn → decode s.ibuf s.cur = .ok (i, n) →
    ∃ t, step s = .next t ∧ t.cur = s.cur + n ∧ s.cur < t.cur ∧ (n = 7 ∨ n = 9 ∨ n = 11)) ∧
  (∀ (s : State) (k : FaultKind), s.turn → s.cur < s.len → decode s.ibuf s.cur = .error k →
    ∃ t, step s = .next t ∧ t.cur = s.cur) ∧
  (∀ (i : Instr) (s : State), ∃ t, exec i s = .next t ∧ t.cur = s.cur)

/-- 40_sequencer R96: an instruction fully applies its effect, one cell written and the cursor advanced, or on a
MemoryFault its cell is not written while the cursor has advanced. -/
def Obligations.InstructionAppliesFullyOrNotAtAll : Prop :=
  ∀ (s : State) (i : Instr) (n : Nat), s.turn → decode s.ibuf s.cur = .ok (i, n) →
    ((∀ x ∈ checkedAddresses s i, x < s.cap) →
      ∃ t v, step s = .next t ∧ CellReplaced s t (writeAddress i) v ∧
        SameButMem (s.popInput.advance n) t) ∧
    ((∃ x ∈ checkedAddresses s i, s.cap ≤ x) →
      ∃ t, step s = .next t ∧ StoppedBy .memoryFault (s.popInput.advance n) t)

/-- 40_sequencer R94: at the end of the buffer a range inside the memory halts the run and presents the cells of the
half-open range in ascending address order; a range outside it is a MemoryFault with no result. The memory is not
changed. -/
def Obligations.FinishPresentsRangeOrFaults : Prop :=
  ∀ s : State, s.turn → s.cur = s.len → s.rangeLo ≤ s.rangeHi →
    (s.rangeHi ≤ s.cap →
      ∃ t l, step s = .next t ∧ t.runState = .halted ∧ t.fault = s.fault ∧ t.mem = s.mem ∧ t.cur = s.cur ∧
        t.result = some l ∧ l.length = s.rangeHi - s.rangeLo ∧
        ∀ k, k < s.rangeHi - s.rangeLo → l[k]? = some (s.rangeLo + k, s.cell (s.rangeLo + k))) ∧
    (s.cap < s.rangeHi →
      ∃ t, step s = .next t ∧ StoppedBy .memoryFault s.popInput t ∧ t.result = none)

/-- 40_sequencer R94, its last case: an inverted export range faults. That it faults is the spec's decision D11
(log 18). -/
def Obligations.InvertedRangeFaults : Prop :=
  ∀ s : State, s.turn → s.cur = s.len → s.rangeHi < s.rangeLo →
    ∃ t, step s = .next t ∧ StoppedBy .memoryFault s.popInput t ∧ t.result = none

/-- 10_state R35: the result slice is presented when and only when RUNSTATE is Halted, and it lists every address of the
range in ascending order with its cell. -/
def Obligations.ResultPresentedExactlyInHalted : Prop :=
  ∀ s : State,
    (s.runState = .halted →
      ∃ l, s.result = some l ∧ l.length = s.rangeHi - s.rangeLo ∧
        ∀ k, k < s.rangeHi - s.rangeLo → l[k]? = some (s.rangeLo + k, s.cell (s.rangeLo + k))) ∧
    (s.runState ≠ .halted → s.result = none)

/-- 60_exceptions R137: the order of the tests within one step. The validity of an inverted range in the first case is
the spec's decision D11. -/
def Obligations.FaultPriorityWithinAStep : Prop :=
  ∀ s : State, s.turn → s.cur ≤ s.len →
    if s.cur = s.len then
      ∃ t, step s = .next t ∧
        t.fault = if s.rangeLo ≤ s.rangeHi ∧ s.rangeHi ≤ s.cap then s.fault else some .memoryFault
    else
      ∃ b0 t, s.ibuf[s.cur]? = some b0 ∧ step s = .next t ∧
        match Opcode.ofTag (tagOf b0) with
        | none => t.fault = some .unknownOpcode
        | some o =>
          if s.len - s.cur < o.length then t.fault = some .truncatedStream
          else ∃ i, decode s.ibuf s.cur = .ok (i, o.length) ∧
            t.fault = if ∀ x ∈ checkedAddresses s i, x < s.cap then s.fault else some .memoryFault

/-- 40_sequencer R95: a step of a run that ends in Faulted sets FAULT and RUNSTATE and changes nothing else, the cursor
being as R25 says, and no further step is taken: whatever the host asks short of a reset, Faulted stays as it is. (Every
step uses up one moment of the host's requests, log 3.) -/
def Obligations.FaultTransitionChangesNothingElse : Prop :=
  (∀ s t : State, s.turn → step s = .next t → t.runState = .faulted →
    (∃ k, t.fault = some k) ∧ t.mem = s.mem ∧ t.cap = s.cap ∧ t.rangeLo = s.rangeLo ∧
    t.rangeHi = s.rangeHi ∧ t.ibuf = s.ibuf ∧ t.inputs = s.inputs.tail ∧ t.result = none ∧
    (t.cur = s.cur ∨ ∃ i n, decode s.ibuf s.cur = .ok (i, n) ∧ t.cur = s.cur + n ∧ t.fault = some .memoryFault)) ∧
  (∀ s : State, s.runState = .faulted → s.input ≠ .reset → step s = .next s.popInput)

/-- 40_sequencer R91: start, in Ready, zeroes the memory and the cursor, latches the buffer and the export bounds,
clears FAULT and enters Running. -/
def Obligations.StartBeginsTheRun : Prop :=
  ∀ (s : State) (buf : List Byte) (lo hi : Nat), s.runState = .ready → s.input = .start buf lo hi →
    ∃ t, step s = .next t ∧ (∀ a, t.cell a = 0) ∧ t.cur = 0 ∧ t.rangeLo = lo ∧ t.rangeHi = hi ∧
      t.fault = none ∧ t.runState = .running ∧ t.ibuf = buf ∧ t.len = buf.length ∧ t.cap = s.cap ∧
      t.inputs = s.inputs.tail

/-- 70_reset_and_hazards R160, 10_state R34: the reset input, from any state. That there is a reset is the spec's
decision D8; the export range after it is this model's choice (log 4) and is not stated. -/
def Obligations.ResetRequestReinitialises : Prop :=
  ∀ s : State, s.input = .reset →
    ∃ t, step s = .next t ∧ (∀ a, t.cell a = 0) ∧ t.cur = 0 ∧ t.runState = .ready ∧ t.fault = none ∧
      t.cap = s.cap ∧ t.inputs = s.inputs.tail

/-- 10_state R34, 00_scope R5: the state right after reset of this hardware. The reset column is the spec's decisions D8
and D21; the export range there is this model's choice (log 4) and is not stated. -/
def Obligations.ResetStateIsReadyAndZero : Prop :=
  (∀ a, State.reset.cell a = 0) ∧ State.reset.cur = 0 ∧ State.reset.runState = .ready ∧
    State.reset.fault = none ∧ State.reset.cap = 1024

/-- 40_sequencer R97: where the run state machine has no edge nothing changes: in Halted and in Faulted whatever the
host asks but a reset, in Running a start, in Ready an idle moment. These rows are the spec's decisions D8 and D23
(log 2). -/
def Obligations.EventsWithoutAnEdgeChangeNothing : Prop :=
  ∀ s : State,
    (s.terminal → s.input ≠ .reset → step s = .next s.popInput) ∧
    (s.runState = .running → ∀ buf lo hi, s.input = .start buf lo hi → step s = .next s.popInput) ∧
    (s.runState = .ready → s.input = .idle → step s = .next s.popInput)

/-- 10_state R26, 40_sequencer R97: every change of RUNSTATE is one of the edges of the run state machine. The edges by
reset are the spec's decision D8. -/
def Obligations.RunStateFollowsItsEdges : Prop :=
  ∀ s t : State, step s = .next t →
    (t.runState = .running →
      (s.turn ∧ ∃ i n, decode s.ibuf s.cur = .ok (i, n) ∧ exec i (s.popInput.advance n) = .next t) ∨
      (s.runState = .running ∧ ∃ buf lo hi, s.input = .start buf lo hi) ∨
      (s.runState = .ready ∧ ∃ buf lo hi, s.input = .start buf lo hi)) ∧
    (t.runState = .halted → s.runState = .halted ∨ (s.turn ∧ s.cur = s.len)) ∧
    (t.runState = .faulted → s.runState = .faulted ∨ s.turn) ∧
    (t.runState = .ready →
      s.input = .reset ∨ (s.runState = .ready ∧ ∀ buf lo hi, s.input ≠ .start buf lo hi))

/-- 20_memory R56: no store reaches the instruction space: no instruction changes IBUF, and a run fetches from the
buffer it was started with until it is reset. -/
def Obligations.InstructionSpaceIsNeverWritten : Prop :=
  (∀ (i : Instr) (s : State), ∃ t, exec i s = .next t ∧ t.ibuf = s.ibuf) ∧
  (∀ s t : State, step s = .next t → s.runState ≠ .ready → s.input ≠ .reset →
    t.ibuf = s.ibuf ∧ t.rangeLo = s.rangeLo ∧ t.rangeHi = s.rangeHi ∧ t.cap = s.cap)

/-! ### The machine as a whole -/

/-- The invariant holds right after reset (10_state R34). -/
def Obligations.ResetMeetsTheInvariant : Prop := State.reset.Inv

/-- Every step keeps the invariant: CAP positive, the memory canonical and inside CAP, `CUR <= L`, FAULT None exactly
outside Faulted, Halted only at the end of the buffer with a valid range, Ready untouched (10_state R21, R24, R27;
20_memory R51; 40_sequencer R93, R94). The canonical form is this model's choice (log 7). -/
def Obligations.StepKeepsTheInvariant : Prop :=
  ∀ s t : State, s.Inv → step s = .next t → t.Inv

/-- 93_implementation_defined §1, 40_sequencer R93, R100: a step always answers a next state, but in a Running state
whose cursor lies beyond the buffer; there this model stops by name (log 9). -/
def Obligations.StepStopsOnlyBeyondTheBuffer : Prop :=
  ∀ s : State,
    ((s.runState = .running → s.cur ≤ s.len) → ∃ t, step s = .next t) ∧
    (s.turn → s.len < s.cur → step s = .fault .cursorPastEnd)

/-- 40_sequencer R99: a run that the host leaves alone ends in Halted or Faulted within `floor((L - CUR) / 7) + 1`
steps; from its start, where CUR is 0, within `floor(L / 7) + 1`. -/
def Obligations.EveryRunTerminates : Prop :=
  ∀ s : State, s.runState = .running → s.inputs = [] → s.cur ≤ s.len →
    ∃ k t, k ≤ (s.len - s.cur) / 7 + 1 ∧ Host.Core.run core k s = .next t ∧ t.terminal

/-- 40_sequencer R100: a run is a function of its buffer, its export bounds and CAP alone: two Ready instances of one
capacity given the same start are in the same state ever after, whatever they held before. -/
def Obligations.RunDependsOnItsArgumentsOnly : Prop :=
  ∀ (s s' : State) (buf : List Byte) (lo hi k : Nat),
    s.runState = .ready → s'.runState = .ready → s'.cap = s.cap → s'.inputs = s.inputs →
    s.input = .start buf lo hi →
    Host.Core.run core (k + 1) s' = Host.Core.run core (k + 1) s

/-! ### Status codes, the host's side, the assembler -/

/-- 10_state R26, R27, 60_exceptions R135: the 2-bit codes of RUNSTATE and FAULT as the outputs show them. The numbers
are the spec's decision D5 (log 16). -/
def Obligations.OutputsShowStatusCodes : Prop :=
  ∀ s : State,
    s.outputs.runState =
      (match s.runState with | .ready => 0 | .running => 1 | .halted => 2 | .faulted => 3) ∧
    s.outputs.fault =
      (match s.fault with
        | none => 0
        | some .unknownOpcode => 1
        | some .truncatedStream => 2
        | some .memoryFault => 3) ∧
    s.outputs.result = s.result

/-- 10_state R28, 70_reset_and_hazards R167: the host refuses a negative export bound as a MemoryFault without starting
a run, and passes any other as it is. -/
def Obligations.NegativeExportBoundIsRefused : Prop :=
  ∀ (buf : List Byte) (lo hi : Int),
    (lo < 0 ∨ hi < 0 → hostRunRequest buf lo hi = .error .memoryFault) ∧
    (∀ l h : Nat, lo = l → hi = h → hostRunRequest buf lo hi = .ok (.start buf l h))

/-- 30_encoding R60, R73, R83: what the assembler emits for a text it accepts is the concatenation, in the order of the
text's lines, of the encodings of the well-formed instructions those lines parse to, with one audit record for each that
holds the line's operands as written. Two clauses are this model's choices. That the records' indexes are 0, 1, 2 and so
on: R83 says only that an index is an integer (log 22, DEDUCED). Which lines a text has, by splitLines: the spec's
decision D15 where a last line terminator adds no line, and this model's own choice for the terminator and for the empty
text (log 21, DESIGN CHOICE). -/
def Obligations.AssemblerConcatenatesEncodings : Prop :=
  ∀ (text : String) (bytes : List Byte) (records : List AuditRecord),
    assemble text = .ok (bytes, records) →
    ∃ is : List Instr, (∀ i ∈ is, i.wellFormed = true) ∧ bytes = is.flatMap encode ∧
      is.length = (splitLines text.toList []).length ∧ records.map AuditRecord.index = List.range is.length ∧
      ∀ k line, (splitLines text.toList [])[k]? = some line →
        ∃ i ops, parseLine line = .ok (i, ops) ∧ is[k]? = some i ∧
          records[k]? = some (AuditRecord.mk k ops)

/-- 30_encoding R78, R80, R82: the instruction a line parses to is the one its mnemonic names, and each of its fields is
the value the line gives that operand's key, modulo `2^w` for a field of w bits. The operands kept for the audit record
are the line's operand tokens in their order (log 22, DEDUCED); that tokens are separated by spaces or tabs is the
spec's decision D15 (log 21), and that a value is masked is read with its decision D14 (log 20). -/
def Obligations.AssembledFieldsAreTheLinesOperands : Prop :=
  ∀ (line : List Char) (i : Instr) (ops : List (Key × Int)), parseLine line = .ok (i, ops) →
    (∃ mnemonic toks, splitTokens line [] = mnemonic :: toks ∧ mnemonicOf mnemonic = some i.opcode ∧
      toks.map parseOperand = ops.map some) ∧
    match i with
    | .loadConst a b c => ∃ va vb vc : Int,
        ops.lookup .a = some va ∧ ops.lookup .b = some vb ∧ ops.lookup .c = some vc ∧
        (a.toNat : Int) = va % 2 ^ 7 ∧ (b.toNat : Int) = vb % 2 ^ 32 ∧ (c.toNat : Int) = vc % 2 ^ 16
    | .writeMem a b c => ∃ va vb vc : Int,
        ops.lookup .a = some va ∧ ops.lookup .b = some vb ∧ ops.lookup .c = some vc ∧
        (a.toNat : Int) = va % 2 ^ 7 ∧ (b.toNat : Int) = vb % 2 ^ 32 ∧ (c.toNat : Int) = vc % 2 ^ 32
    | .readMem a b c d => ∃ va vb vc vd : Int,
        ops.lookup .a = some va ∧ ops.lookup .b = some vb ∧ ops.lookup .c = some vc ∧ ops.lookup .d = some vd ∧
        (a.toNat : Int) = va % 2 ^ 7 ∧ (b.toNat : Int) = vb % 2 ^ 32 ∧ (c.toNat : Int) = vc % 2 ^ 32 ∧
        (d.toNat : Int) = vd % 2 ^ 16
    | .unarySqrt a b c d => ∃ va vb vc vd : Int,
        ops.lookup .a = some va ∧ ops.lookup .b = some vb ∧ ops.lookup .c = some vc ∧ ops.lookup .d = some vd ∧
        (a.toNat : Int) = va % 2 ^ 7 ∧ (b.toNat : Int) = vb % 2 ^ 32 ∧ (c.toNat : Int) = vc % 2 ^ 32 ∧
        (d.toNat : Int) = vd % 2 ^ 16

/-- 30_encoding R80: a field of w bits takes a value from `-(2^(w-1))` to `2^w - 1` as that value modulo `2^w`, and no
other. The accepted range is the spec's decision D14. -/
def Obligations.AssemblerMasksSignedValues : Prop :=
  ∀ (w : Nat) (v : Int), 0 < w →
    (-(2 ^ (w - 1) : Int) ≤ v → v ≤ (2 ^ w : Int) - 1 →
      ∃ x, fieldOf w v = some x ∧ (x.toNat : Int) = v % 2 ^ w) ∧
    (v < -(2 ^ (w - 1) : Int) ∨ (2 ^ w : Int) - 1 < v → fieldOf w v = none)
end

