-- ==== Sys2Proof/Laws/Codec.lean ====
section
/-! SUPPORT. The small lemmas of the codec (30_encoding R62 to R74). -/

namespace Sys2Proof

@[simp] theorem leBytes_length (n v : Nat) : (leBytes n v).length = n := by
  induction n generalizing v with
  | zero => rfl
  | succ n ih => simp [leBytes, ih]

/-- Reading back the n bytes of a number gives the number modulo `256^n`. -/
theorem leValue_leBytes (n v : Nat) : leValue (leBytes n v) = v % 256 ^ n := by
  induction n generalizing v with
  | zero => simp [leBytes, leValue, Nat.mod_one]
  | succ n ih =>
    simp only [leBytes, leValue, ih, BitVec.toNat_ofNat, pow_succ']
    have := Nat.mod_mul (x := v) (a := 256) (b := 256 ^ n)
    omega

theorem leValue_lt (bs : List Byte) : leValue bs < 256 ^ bs.length := by
  induction bs with
  | nil => simp [leValue]
  | cons b bs ih =>
    have hb : b.toNat < 256 := b.isLt
    simp only [leValue, List.length_cons, pow_succ']
    omega

/-- Writing out the value of a byte sequence gives the sequence back. -/
theorem leBytes_leValue (bs : List Byte) : leBytes bs.length (leValue bs) = bs := by
  induction bs with
  | nil => rfl
  | cons b bs ih =>
    have hb : b.toNat < 256 := b.isLt
    have h0 : BitVec.ofNat 8 (leValue (b :: bs)) = b := by
      apply BitVec.eq_of_toNat_eq; simp only [leValue, BitVec.toNat_ofNat]; omega
    have h1 : leValue (b :: bs) / 256 = leValue bs := by simp only [leValue]; omega
    simp only [List.length_cons, leBytes, h0, h1, ih]

/-- A field that does not start at byte 0 does not depend on byte 0 (R65 to R67). -/
theorem FieldPlace.value_cons (o n : Nat) (b0 : Byte) (rest : List Byte) :
    FieldPlace.value ⟨o + 1, n⟩ (b0 :: rest) = leValue ((rest.drop o).take n) := by
  simp [FieldPlace.value]

/-- A field that holds the n bytes of a number has that number's value (R73). -/
theorem FieldPlace.value_encoded (b0 : Byte) (pre suf : List Byte) (n v : Nat) :
    FieldPlace.value ⟨pre.length + 1, n⟩ (b0 :: (pre ++ (leBytes n v ++ suf))) = v % 256 ^ n := by
  rw [FieldPlace.value_cons, List.drop_append_of_le_length (le_refl _), List.drop_length,
    List.nil_append, List.take_append_of_le_length (by simp), List.take_of_length_le (by simp),
    leValue_leBytes]

/-- The tag table, both ways (R68, R73). -/
@[simp] theorem Opcode.ofTag_tag (o : Opcode) : Opcode.ofTag o.tag = some o := by cases o <;> decide

theorem Opcode.tag_of_ofTag {t : Tag} {o : Opcode} (h : Opcode.ofTag t = some o) : t = o.tag := by
  unfold Opcode.ofTag at h
  split at h
  · next ht => cases h; exact ht
  split at h
  · next ht => cases h; exact ht
  split at h
  · next ht => cases h; exact ht
  split at h
  · next ht => cases h; exact ht
  · cases h

/-- A tag is known exactly when it is one of the four (R68, R70). -/
theorem Opcode.ofTag_none {t : Tag} :
    Opcode.ofTag t = none ↔ t ≠ 94 ∧ t ≠ 88 ∧ t ≠ 9 ∧ t ≠ 34 := by
  unfold Opcode.ofTag Opcode.tag
  split_ifs <;> simp_all

@[simp] theorem tagOf_tagByte (o : Opcode) : tagOf (tagByte o) = o.tag := by cases o <;> decide

@[simp] theorem extractFields_opcode (o : Opcode) (a : Tag) (bs : List Byte) :
    (extractFields o a bs).opcode = o := by cases o <;> rfl

/-- Everything the decoder can do on a nonempty byte sequence (R69). -/
theorem decodeBytes_cons (b0 : Byte) (rest : List Byte) :
    decodeBytes (b0 :: rest) =
      match Opcode.ofTag (tagOf b0) with
      | none => .error .unknownOpcode
      | some o =>
        if rest.length + 1 < o.length then .error .truncatedStream
        else .ok (extractFields o (tagOf b0) (b0 :: rest), o.length) := by
  cases h : Opcode.ofTag (tagOf b0) <;> simp [decodeBytes, dec, h]

/-- What a successful decode says of the bytes and of the instruction (R69). -/
theorem decodeBytes_ok {bs : List Byte} {i : Instr} {n : Nat} (h : decodeBytes bs = .ok (i, n)) :
    ∃ b0 rest, bs = b0 :: rest ∧ Opcode.ofTag (tagOf b0) = some i.opcode ∧ n = i.length ∧
      n ≤ bs.length ∧ i = extractFields i.opcode i.opcode.tag bs := by
  cases bs with
  | nil => cases h
  | cons b0 rest =>
    rw [decodeBytes_cons] at h
    split at h
    · cases h
    · next o ho =>
      split at h
      · cases h
      · next hn =>
        injection h with h
        injection h with hi hl
        have ht := Opcode.tag_of_ofTag ho
        have hop : i.opcode = o := by rw [← hi]; simp
        refine ⟨b0, rest, rfl, by rw [hop]; exact ho, ?_, ?_, ?_⟩
        · rw [← hl, Instr.length, hop]
        · rw [← hl]; simp only [List.length_cons]; omega
        · rw [hop, ← ht]; exact hi.symm

theorem Format.length_pos (f : Format) : 7 ≤ f.length := by cases f <;> decide

theorem Instr.length_pos (i : Instr) : 7 ≤ i.length := Format.length_pos _

end Sys2Proof
end

