-- ==== Sys2Proof/Laws/State.lean ====
section
/-! SUPPORT. One lemma per field per update of the state, so that no later proof unfolds a record update. -/

namespace Sys2Proof.Machine

variable (s : State)

/-! ### setMem -/

@[simp] theorem State.setMem_cap (m : Memory) : (s.setMem m).cap = s.cap := rfl
@[simp] theorem State.setMem_mem (m : Memory) : (s.setMem m).mem = m := rfl
@[simp] theorem State.setMem_cur (m : Memory) : (s.setMem m).cur = s.cur := rfl
@[simp] theorem State.setMem_runState (m : Memory) : (s.setMem m).runState = s.runState := rfl
@[simp] theorem State.setMem_fault (m : Memory) : (s.setMem m).fault = s.fault := rfl
@[simp] theorem State.setMem_rangeLo (m : Memory) : (s.setMem m).rangeLo = s.rangeLo := rfl
@[simp] theorem State.setMem_rangeHi (m : Memory) : (s.setMem m).rangeHi = s.rangeHi := rfl
@[simp] theorem State.setMem_ibuf (m : Memory) : (s.setMem m).ibuf = s.ibuf := rfl
@[simp] theorem State.setMem_inputs (m : Memory) : (s.setMem m).inputs = s.inputs := rfl

/-! ### advance -/

@[simp] theorem State.advance_cap (n : Nat) : (s.advance n).cap = s.cap := rfl
@[simp] theorem State.advance_mem (n : Nat) : (s.advance n).mem = s.mem := rfl
@[simp] theorem State.advance_cur (n : Nat) : (s.advance n).cur = s.cur + n := rfl
@[simp] theorem State.advance_runState (n : Nat) : (s.advance n).runState = s.runState := rfl
@[simp] theorem State.advance_fault (n : Nat) : (s.advance n).fault = s.fault := rfl
@[simp] theorem State.advance_rangeLo (n : Nat) : (s.advance n).rangeLo = s.rangeLo := rfl
@[simp] theorem State.advance_rangeHi (n : Nat) : (s.advance n).rangeHi = s.rangeHi := rfl
@[simp] theorem State.advance_ibuf (n : Nat) : (s.advance n).ibuf = s.ibuf := rfl
@[simp] theorem State.advance_inputs (n : Nat) : (s.advance n).inputs = s.inputs := rfl

/-! ### raise -/

@[simp] theorem State.raise_cap (k : FaultKind) : (s.raise k).cap = s.cap := rfl
@[simp] theorem State.raise_mem (k : FaultKind) : (s.raise k).mem = s.mem := rfl
@[simp] theorem State.raise_cur (k : FaultKind) : (s.raise k).cur = s.cur := rfl
@[simp] theorem State.raise_runState (k : FaultKind) : (s.raise k).runState = .faulted := rfl
@[simp] theorem State.raise_fault (k : FaultKind) : (s.raise k).fault = some k := rfl
@[simp] theorem State.raise_rangeLo (k : FaultKind) : (s.raise k).rangeLo = s.rangeLo := rfl
@[simp] theorem State.raise_rangeHi (k : FaultKind) : (s.raise k).rangeHi = s.rangeHi := rfl
@[simp] theorem State.raise_ibuf (k : FaultKind) : (s.raise k).ibuf = s.ibuf := rfl
@[simp] theorem State.raise_inputs (k : FaultKind) : (s.raise k).inputs = s.inputs := rfl

/-! ### popInput -/

@[simp] theorem State.popInput_cap : (s.popInput).cap = s.cap := rfl
@[simp] theorem State.popInput_mem : (s.popInput).mem = s.mem := rfl
@[simp] theorem State.popInput_cur : (s.popInput).cur = s.cur := rfl
@[simp] theorem State.popInput_runState : (s.popInput).runState = s.runState := rfl
@[simp] theorem State.popInput_fault : (s.popInput).fault = s.fault := rfl
@[simp] theorem State.popInput_rangeLo : (s.popInput).rangeLo = s.rangeLo := rfl
@[simp] theorem State.popInput_rangeHi : (s.popInput).rangeHi = s.rangeHi := rfl
@[simp] theorem State.popInput_ibuf : (s.popInput).ibuf = s.ibuf := rfl
@[simp] theorem State.popInput_inputs : (s.popInput).inputs = s.inputs.tail := rfl

/-! ### resetCore -/

@[simp] theorem State.resetCore_cap : (s.resetCore).cap = s.cap := rfl
@[simp] theorem State.resetCore_mem : (s.resetCore).mem = [] := rfl
@[simp] theorem State.resetCore_cur : (s.resetCore).cur = 0 := rfl
@[simp] theorem State.resetCore_runState : (s.resetCore).runState = .ready := rfl
@[simp] theorem State.resetCore_fault : (s.resetCore).fault = none := rfl
@[simp] theorem State.resetCore_rangeLo : (s.resetCore).rangeLo = 0 := rfl
@[simp] theorem State.resetCore_rangeHi : (s.resetCore).rangeHi = 0 := rfl
@[simp] theorem State.resetCore_ibuf : (s.resetCore).ibuf = [] := rfl
@[simp] theorem State.resetCore_inputs : (s.resetCore).inputs = s.inputs := rfl

/-! ### reset -/

@[simp] theorem State.reset_cap : State.reset.cap = 1024 := rfl
@[simp] theorem State.reset_mem : State.reset.mem = [] := rfl
@[simp] theorem State.reset_cur : State.reset.cur = 0 := rfl
@[simp] theorem State.reset_runState : State.reset.runState = .ready := rfl
@[simp] theorem State.reset_fault : State.reset.fault = none := rfl
@[simp] theorem State.reset_rangeLo : State.reset.rangeLo = 0 := rfl
@[simp] theorem State.reset_rangeHi : State.reset.rangeHi = 0 := rfl
@[simp] theorem State.reset_ibuf : State.reset.ibuf = [] := rfl
@[simp] theorem State.reset_inputs : State.reset.inputs = [] := rfl

/-! ### start, accepted -/

theorem State.start_cap (h : s.runState = .ready) (buf : List Byte) (lo hi : Nat) :
    (s.start buf lo hi).cap = s.cap := by simp [State.start, h]
theorem State.start_mem (h : s.runState = .ready) (buf : List Byte) (lo hi : Nat) :
    (s.start buf lo hi).mem = [] := by simp [State.start, h]
theorem State.start_cur (h : s.runState = .ready) (buf : List Byte) (lo hi : Nat) :
    (s.start buf lo hi).cur = 0 := by simp [State.start, h]
theorem State.start_runState (h : s.runState = .ready) (buf : List Byte) (lo hi : Nat) :
    (s.start buf lo hi).runState = .running := by simp [State.start, h]
theorem State.start_fault (h : s.runState = .ready) (buf : List Byte) (lo hi : Nat) :
    (s.start buf lo hi).fault = none := by simp [State.start, h]
theorem State.start_rangeLo (h : s.runState = .ready) (buf : List Byte) (lo hi : Nat) :
    (s.start buf lo hi).rangeLo = lo := by simp [State.start, h]
theorem State.start_rangeHi (h : s.runState = .ready) (buf : List Byte) (lo hi : Nat) :
    (s.start buf lo hi).rangeHi = hi := by simp [State.start, h]
theorem State.start_ibuf (h : s.runState = .ready) (buf : List Byte) (lo hi : Nat) :
    (s.start buf lo hi).ibuf = buf := by simp [State.start, h]
theorem State.start_inputs (h : s.runState = .ready) (buf : List Byte) (lo hi : Nat) :
    (s.start buf lo hi).inputs = s.inputs := by simp [State.start, h]

/-- Outside Ready a start request is ignored (40_sequencer R91). -/
theorem State.start_ignored (h : s.runState ≠ .ready) (buf : List Byte) (lo hi : Nat) :
    s.start buf lo hi = s := by simp [State.start, h]

/-! ### finish -/

@[simp] theorem State.finish_cap : s.finish.cap = s.cap := by unfold State.finish; split <;> rfl
@[simp] theorem State.finish_mem : s.finish.mem = s.mem := by unfold State.finish; split <;> rfl
@[simp] theorem State.finish_cur : s.finish.cur = s.cur := by unfold State.finish; split <;> rfl
@[simp] theorem State.finish_rangeLo : s.finish.rangeLo = s.rangeLo := by unfold State.finish; split <;> rfl
@[simp] theorem State.finish_rangeHi : s.finish.rangeHi = s.rangeHi := by unfold State.finish; split <;> rfl
@[simp] theorem State.finish_ibuf : s.finish.ibuf = s.ibuf := by unfold State.finish; split <;> rfl
@[simp] theorem State.finish_inputs : s.finish.inputs = s.inputs := by unfold State.finish; split <;> rfl

/-- A valid export range ends the run in Halted (40_sequencer R94). -/
theorem State.finish_valid (h : s.rangeLo ≤ s.rangeHi ∧ s.rangeHi ≤ s.cap) :
    s.finish = { s with runState := .halted } := by simp [State.finish, h]

/-- Any other range is a MemoryFault (40_sequencer R94). -/
theorem State.finish_invalid (h : ¬(s.rangeLo ≤ s.rangeHi ∧ s.rangeHi ≤ s.cap)) :
    s.finish = s.raise .memoryFault := by simp only [State.finish, if_neg h]

/-! ### Readers of the state -/

@[simp] theorem State.setMem_len (m : Memory) : (s.setMem m).len = s.len := rfl
@[simp] theorem State.setMem_cell (m : Memory) (x : Nat) : (s.setMem m).cell x = m.read x := rfl
@[simp] theorem State.advance_len (n : Nat) : (s.advance n).len = s.len := rfl
@[simp] theorem State.advance_cell (n : Nat) (x : Nat) : (s.advance n).cell x = s.cell x := rfl
@[simp] theorem State.raise_len (k : FaultKind) : (s.raise k).len = s.len := rfl
@[simp] theorem State.raise_cell (k : FaultKind) (x : Nat) : (s.raise k).cell x = s.cell x := rfl
@[simp] theorem State.popInput_len : (s.popInput).len = s.len := rfl
@[simp] theorem State.popInput_cell (x : Nat) : (s.popInput).cell x = s.cell x := rfl

end Sys2Proof.Machine
end

