-- ==== Sys2Proof/Laws/Memory.lean ====
section
/-! SUPPORT. The laws of the data memory: a write gives the value back, leaves every other cell alone, and keeps the
canonical form (20_memory R49, R50; log 7). -/

namespace Sys2Proof.Machine

@[simp] theorem Memory.read_nil (a : Nat) : Memory.read [] a = 0 := rfl

theorem Memory.read_cons (k : Nat) (w : Cell) (m : Memory) (a : Nat) :
    Memory.read ((k, w) :: m) a = if k = a then w else Memory.read m a := rfl

/-! ### Reading after an update -/

theorem Memory.read_insert_self (a : Nat) (v : Cell) (m : Memory) (h : ∀ p ∈ m, p.1 ≠ a) :
    Memory.read (Memory.insert a v m) a = v := by
  induction m with
  | nil => simp [Memory.insert, Memory.read]
  | cons p m ih =>
    obtain ⟨k, w⟩ := p
    have hk : k ≠ a := h (k, w) (by simp)
    simp only [Memory.insert]
    split
    · simp [Memory.read]
    · simpa [Memory.read, hk] using ih fun p hp => h p (List.mem_cons_of_mem _ hp)

theorem Memory.read_insert_other (a x : Nat) (v : Cell) (m : Memory) (h : x ≠ a) :
    Memory.read (Memory.insert a v m) x = Memory.read m x := by
  induction m with
  | nil => simp [Memory.insert, Memory.read, h.symm]
  | cons p m ih =>
    obtain ⟨k, w⟩ := p
    simp only [Memory.insert]
    split
    · simp [Memory.read, h.symm]
    · simp [Memory.read, ih]

theorem Memory.mem_erase {m : Memory} {a : Nat} {p : Nat × Cell} :
    p ∈ Memory.erase m a ↔ p ∈ m ∧ p.1 ≠ a := by
  simp [Memory.erase]

theorem Memory.read_of_absent (m : Memory) (a : Nat) (h : ∀ p ∈ m, p.1 ≠ a) :
    Memory.read m a = 0 := by
  induction m with
  | nil => rfl
  | cons p m ih =>
    have hk : p.1 ≠ a := h p (by simp)
    simpa [Memory.read, hk] using ih fun q hq => h q (List.mem_cons_of_mem _ hq)

theorem Memory.read_erase_other (m : Memory) (a x : Nat) (h : x ≠ a) :
    Memory.read (Memory.erase m a) x = Memory.read m x := by
  induction m with
  | nil => rfl
  | cons p m ih =>
    obtain ⟨k, w⟩ := p
    unfold Memory.erase at ih ⊢
    by_cases hk : k = a
    · subst hk; simpa [Memory.read, h.symm] using ih
    · simp [hk, Memory.read, ih]

/-- Reading a memory after one cell is written: the value written there, every other cell as before. -/
@[simp] theorem Memory.read_write (m : Memory) (a x : Nat) (v : Cell) :
    Memory.read (Memory.write m a v) x = if x = a then v else Memory.read m x := by
  have hne : ∀ p ∈ Memory.erase m a, p.1 ≠ a := fun p hp => (Memory.mem_erase.1 hp).2
  unfold Memory.write
  by_cases hx : x = a
  · subst hx
    split
    · next hv => simp [Memory.read_of_absent _ _ hne, hv]
    · simp [Memory.read_insert_self _ _ _ hne]
  · split <;> simp [Memory.read_insert_other, Memory.read_erase_other, hx]

/-- The cells of a state after one cell is written. -/
theorem State.cell_write (s : State) (a x : Nat) (v : Cell) :
    (s.setMem (s.mem.write a v)).cell x = if x = a then v else s.cell x := by
  simp [State.cell]

/-! ### The canonical form -/

theorem Memory.wf_nil : Memory.wf [] := by decide

theorem Memory.mem_insert {a : Nat} {v : Cell} {m : Memory} {p : Nat × Cell} :
    p ∈ Memory.insert a v m ↔ p = (a, v) ∨ p ∈ m := by
  induction m with
  | nil => simp [Memory.insert]
  | cons q m ih =>
    simp only [Memory.insert]
    split
    · simp
    · simp only [List.mem_cons, ih]; tauto

theorem Memory.sorted_insert {a : Nat} {v : Cell} {m : Memory}
    (hs : m.Pairwise (fun p q => p.1 < q.1)) (hne : ∀ p ∈ m, p.1 ≠ a) :
    (Memory.insert a v m).Pairwise (fun p q => p.1 < q.1) := by
  induction m with
  | nil => simp [Memory.insert]
  | cons q m ih =>
    obtain ⟨hq, hm⟩ := List.pairwise_cons.1 hs
    have hqa : q.1 ≠ a := hne q (by simp)
    simp only [Memory.insert]
    split
    · next hlt =>
      refine List.pairwise_cons.2 ⟨?_, hs⟩
      intro p hp
      obtain rfl | hp := List.mem_cons.1 hp
      · exact hlt
      · exact hlt.trans (hq p hp)
    · next hge =>
      refine List.pairwise_cons.2 ⟨?_, ih hm fun p hp => hne p (List.mem_cons_of_mem _ hp)⟩
      intro p hp
      obtain rfl | hp := Memory.mem_insert.1 hp
      · exact lt_of_le_of_ne (not_lt.1 hge) hqa
      · exact hq p hp

theorem Memory.wf_erase {m : Memory} (h : m.wf) (a : Nat) : (m.erase a).wf :=
  ⟨h.1.filter _, fun p hp => h.2 p (Memory.mem_erase.1 hp).1⟩

/-- A write keeps the canonical form. -/
theorem Memory.wf_write {m : Memory} (h : m.wf) (a : Nat) (v : Cell) : (m.write a v).wf := by
  have he := Memory.wf_erase h a
  unfold Memory.write
  split
  · exact he
  · next hv =>
    refine ⟨Memory.sorted_insert he.1 fun p hp => (Memory.mem_erase.1 hp).2, fun p hp => ?_⟩
    obtain rfl | hp := Memory.mem_insert.1 hp
    · exact hv
    · exact he.2 p hp

/-- The addresses a memory lists after a write: those it listed and the one written. -/
theorem Memory.address_of_mem_write {m : Memory} {a : Nat} {v : Cell} {p : Nat × Cell}
    (hp : p ∈ m.write a v) : p.1 = a ∨ p ∈ m := by
  unfold Memory.write at hp
  split at hp
  · exact .inr (Memory.mem_erase.1 hp).1
  · obtain rfl | hp := Memory.mem_insert.1 hp
    · exact .inl rfl
    · exact .inr (Memory.mem_erase.1 hp).1

/-- The memory at reset is canonical. -/
theorem State.reset_mem_wf : State.reset.mem.wf := Memory.wf_nil

/-- In a canonical memory a listed pair is what its address reads as. -/
theorem Memory.read_of_mem {m : Memory} (h : m.wf) {p : Nat × Cell} (hp : p ∈ m) :
    m.read p.1 = p.2 := by
  induction m with
  | nil => simp at hp
  | cons q m ih =>
    obtain ⟨k, w⟩ := q
    obtain ⟨hs, hz⟩ := h
    obtain ⟨hq, hm⟩ := List.pairwise_cons.1 hs
    obtain rfl | hp := List.mem_cons.1 hp
    · simp [Memory.read]
    · have : k ≠ p.1 := (hq p hp).ne
      simpa [Memory.read, this] using ih ⟨hm, fun q hq => hz q (List.mem_cons_of_mem _ hq)⟩ hp

end Sys2Proof.Machine
end

