-- ==== Sys2Proof/Laws/Exec.lean ====
section
/-! SUPPORT. What the shared operations and the four meanings can do, each said once. -/

namespace Sys2Proof.Machine

/-! ### The memory primitives -/

theorem check_eq (s : State) (a : Nat) :
    check s a = if a < s.cap then .ok () else .error .memoryFault := rfl

theorem memRead_eq (s : State) (a : Nat) :
    memRead s a = if a < s.cap then .ok (s.cell a) else .error .memoryFault := by
  unfold memRead check; split <;> rfl

theorem memWrite_eq (s : State) (a : Nat) (v : Cell) :
    memWrite s a v = if a < s.cap then .ok (s.setMem (s.mem.write a v)) else .error .memoryFault := by
  unfold memWrite check; split <;> rfl

@[simp] theorem complete_ok (s t : State) : complete s (.ok t) = .next t := rfl

@[simp] theorem complete_error (s : State) (k : FaultKind) :
    complete s (.error k) = .next (s.raise k) := rfl

/-! ### The meanings -/

theorem execLoadConst_eq (a : Tag) (b : Addr) (c : Imm) (s : State) :
    execLoadConst a b c s =
      if absolute b < s.cap then .next (s.setMem (s.mem.write (absolute b) c))
      else .next (s.raise .memoryFault) := by
  unfold execLoadConst
  simp only [check_eq, memWrite_eq]
  split <;> rfl

theorem execWriteMem_eq (a : Tag) (b c : Addr) (s : State) :
    execWriteMem a b c s =
      if absolute b < s.cap ∧ absolute c < s.cap then
        .next (s.setMem (s.mem.write (absolute b) (s.cell (absolute c))))
      else .next (s.raise .memoryFault) := by
  unfold execWriteMem
  simp only [check_eq, memWrite_eq, memRead_eq]
  by_cases hb : absolute b < s.cap <;> by_cases hc : absolute c < s.cap <;> simp [hb, hc] <;> rfl

theorem execReadMem_eq (a : Tag) (b c : Addr) (d : Off) (s : State) :
    execReadMem a b c d s =
      if absolute b < s.cap ∧ absolute c < s.cap ∧
          pointerPlusOffset (s.cell (absolute c)) d < s.cap then
        .next (s.setMem (s.mem.write (absolute b)
          (s.cell (pointerPlusOffset (s.cell (absolute c)) d))))
      else .next (s.raise .memoryFault) := by
  unfold execReadMem
  simp only [check_eq, memWrite_eq, memRead_eq]
  by_cases hb : absolute b < s.cap <;> by_cases hc : absolute c < s.cap <;>
    by_cases he : pointerPlusOffset (s.cell (absolute c)) d < s.cap <;>
    simp [hb, hc, he, bind, Except.bind]

theorem execUnarySqrt_eq (a : Tag) (b c : Addr) (d : Off) (s : State) :
    execUnarySqrt a b c d s =
      if absolute b < s.cap ∧ basePlusOffset c d < s.cap then
        .next (s.setMem (s.mem.write (basePlusOffset c d) (sqrtCell (s.cell (absolute b)))))
      else .next (s.raise .memoryFault) := by
  unfold execUnarySqrt
  simp only [check_eq, memWrite_eq, memRead_eq]
  by_cases hb : absolute b < s.cap <;> by_cases hc : basePlusOffset c d < s.cap <;>
    simp [hb, hc] <;> rfl

/-! ### exec as a whole -/

/-- The value an instruction writes: what its meaning hands to its one write. -/
def writtenValue (s : State) : Instr → Cell
  | .loadConst _ _ c => c
  | .writeMem _ _ c => s.cell (absolute c)
  | .readMem _ _ c d => s.cell (pointerPlusOffset (s.cell (absolute c)) d)
  | .unarySqrt _ b _ _ => sqrtCell (s.cell (absolute b))

/-- Everything exec can do: with every checked address in range the one write, else the fault. -/
theorem exec_eq (i : Instr) (s : State) :
    exec i s =
      if ∀ x ∈ checkedAddresses s i, x < s.cap then
        .next (s.setMem (s.mem.write (writeAddress i) (writtenValue s i)))
      else .next (s.raise .memoryFault) := by
  cases i with
  | loadConst a b c =>
    simp [exec, execLoadConst_eq, checkedAddresses, writeAddress, readAddresses, writtenValue]
  | writeMem a b c =>
    simp [exec, execWriteMem_eq, checkedAddresses, writeAddress, readAddresses, writtenValue]
  | readMem a b c d =>
    simp [exec, execReadMem_eq, checkedAddresses, writeAddress, readAddresses, writtenValue]
  | unarySqrt a b c d =>
    simp only [exec, execUnarySqrt_eq, checkedAddresses, writeAddress, readAddresses, writtenValue,
      List.mem_cons, List.not_mem_nil, or_false, forall_eq_or_imp, forall_eq]
    exact if_congr and_comm rfl rfl

/-- The two ways exec can answer, for proofs over an answer it gave. -/
theorem exec_cases {i : Instr} {s t : State} (h : exec i s = .next t) :
    (t = s.setMem (s.mem.write (writeAddress i) (writtenValue s i)) ∧
      ∀ x ∈ checkedAddresses s i, x < s.cap) ∨
    (t = s.raise .memoryFault ∧ ∃ x ∈ checkedAddresses s i, s.cap ≤ x) := by
  rw [exec_eq] at h
  split at h
  · next hx => exact .inl ⟨by injection h with h; exact h.symm, hx⟩
  · next hx => exact .inr ⟨by injection h with h; exact h.symm, by simpa using hx⟩

end Sys2Proof.Machine
end

