-- ==== Sys2Proof/Laws/PerInstr.lean ====
section
/-! SUPPORT. The family EncodedLength: an instruction's encoding has the length of the table (30_encoding R68, R73). -/

namespace Sys2Proof.Laws.EncodedLength

/-- The encoding of an instruction has exactly `LEN` bytes. -/
def Statement (i : Instr) : Prop := (encode i).length = i.length

theorem loadConst (a : Tag) (b : Addr) (c : Imm) : Statement (.loadConst a b c) := by
  simp [Statement, encode]; rfl

theorem writeMem (a : Tag) (b c : Addr) : Statement (.writeMem a b c) := by
  simp [Statement, encode]; rfl

theorem readMem (a : Tag) (b c : Addr) (d : Off) : Statement (.readMem a b c d) := by
  simp [Statement, encode]; rfl

theorem unarySqrt (a : Tag) (b c : Addr) (d : Off) : Statement (.unarySqrt a b c d) := by
  simp [Statement, encode]; rfl

end Sys2Proof.Laws.EncodedLength
end

