-- ==== Sys2Proof/Laws/Sequencer.lean ====
section
/-! SUPPORT. What one step can do, case by case (40_sequencer R92, R97), and the inversion of a step that answers a
next state. -/

namespace Sys2Proof.Machine

theorem step_reset {s : State} (h : s.input = .reset) : step s = .next s.popInput.resetCore := by
  simp [step, transition, h]

theorem step_start {s : State} {buf : List Byte} {lo hi : Nat} (h : s.input = .start buf lo hi) :
    step s = .next (s.popInput.start buf lo hi) := by
  simp [step, transition, h]

theorem step_idle_stopped {s : State} (h : s.input = .idle) (hr : s.runState ≠ .running) :
    step s = .next s.popInput := by
  simp [step, transition, h, hr]

theorem step_idle_running {s : State} (h : s.input = .idle) (hr : s.runState = .running) :
    step s = runStep s.popInput := by
  simp [step, transition, h, hr]

theorem runStep_end {s : State} (h : s.cur = s.len) : runStep s = .next s.finish := by
  simp [runStep, h]

theorem runStep_past {s : State} (h : s.len < s.cur) : runStep s = .fault .cursorPastEnd := by
  simp [runStep, h, h.ne']

theorem runStep_error {s : State} {k : FaultKind} (h : s.cur < s.len)
    (hd : decode s.ibuf s.cur = .error k) : runStep s = .next (s.raise k) := by
  simp [runStep, h.ne, h.not_gt, hd]

theorem runStep_ok {s : State} {i : Instr} {n : Nat} (h : s.cur < s.len)
    (hd : decode s.ibuf s.cur = .ok (i, n)) : runStep s = exec i (s.advance n) := by
  simp [runStep, h.ne, h.not_gt, hd]

/-- A decode that succeeds lies inside the buffer (30_encoding R71). -/
theorem decode_inside {ibuf : List Byte} {c : Nat} {i : Instr} {n : Nat}
    (h : decode ibuf c = .ok (i, n)) : n = i.length ∧ c + n ≤ ibuf.length := by
  obtain ⟨b0, rest, hb, -, hn, hle, -⟩ := decodeBytes_ok h
  refine ⟨hn, ?_⟩
  have h7 := i.length_pos
  simp only [List.length_drop] at hle
  omega

/-- Everything one step of the sequencer in Running can answer as a next state. -/
theorem runStep_cases {s t : State} (h : runStep s = .next t) :
    (s.cur = s.len ∧ t = s.finish) ∨
    (s.cur < s.len ∧ ∃ k, decode s.ibuf s.cur = .error k ∧ t = s.raise k) ∨
    (∃ i n, decode s.ibuf s.cur = .ok (i, n) ∧ exec i (s.advance n) = .next t) := by
  obtain hlt | heq | hgt := lt_trichotomy s.cur s.len
  · cases hd : decode s.ibuf s.cur with
    | error k =>
      rw [runStep_error hlt hd] at h
      exact .inr (.inl ⟨hlt, k, rfl, by injection h with h; exact h.symm⟩)
    | ok p => exact .inr (.inr ⟨p.1, p.2, rfl, by rw [← runStep_ok hlt hd]; exact h⟩)
  · rw [runStep_end heq] at h
    exact .inl ⟨heq, by injection h with h; exact h.symm⟩
  · rw [runStep_past hgt] at h; cases h

/-- Everything one step of the machine can answer as a next state (40_sequencer R97). -/
theorem step_cases {s t : State} (h : step s = .next t) :
    (s.input = .reset ∧ t = s.popInput.resetCore) ∨
    (∃ buf lo hi, s.input = .start buf lo hi ∧ t = s.popInput.start buf lo hi) ∨
    (s.input = .idle ∧ s.runState ≠ .running ∧ t = s.popInput) ∨
    (s.input = .idle ∧ s.runState = .running ∧ runStep s.popInput = .next t) := by
  cases hi : s.input with
  | reset => rw [step_reset hi] at h; exact .inl ⟨rfl, by injection h with h; exact h.symm⟩
  | start buf lo hi' =>
    rw [step_start hi] at h
    exact .inr (.inl ⟨buf, lo, hi', rfl, by injection h with h; exact h.symm⟩)
  | idle =>
    by_cases hr : s.runState = .running
    · rw [step_idle_running hi hr] at h; exact .inr (.inr (.inr ⟨rfl, hr, h⟩))
    · rw [step_idle_stopped hi hr] at h
      exact .inr (.inr (.inl ⟨rfl, hr, by injection h with h; exact h.symm⟩))

/-! ### Runs -/

/-- A run of any machine whose first step answers a next state goes on from there. -/
theorem run_succ_of_next (M : Host.Core) {s t : M.State} (h : M.step s = .next t) (k : Nat) :
    M.run (k + 1) s = M.run k t := by
  rw [Host.Core.run, h]

/-- A run of this machine whose first step answers a next state goes on from there. -/
theorem run_of_step {s t : State} (h : step s = .next t) (k : Nat) :
    Host.Core.run core (k + 1) s = Host.Core.run core k t := run_succ_of_next core h k

end Sys2Proof.Machine
end

