-- ==== Sys2Proof/Tests/Slice0.lean ====
section
/-! SUPPORT. Tests: words, values and outcomes taken from the spec (95_test_vectors), and for every statement with
hypotheses a state and operands that meet them. -/

namespace Sys2Proof.Tests

open Sys2Proof.Machine

/-- A run of the buffer with the given cells, export range [0, 1024). -/
def running (buf : List Byte) (mem : Memory) : State :=
  { State.reset with runState := .running, ibuf := buf, mem := mem, rangeHi := 1024 }

/-- The next state an outcome answers. -/
def nextOf : Host.Outcome State Fault Refusal → Option State
  | .next s => some s
  | .fault _ => none
  | .refused _ => none

/-- What is compared after one step: the memory, the cursor, the run state and the fault. -/
def view (o : Host.Outcome State Fault Refusal) : Option (Memory × Nat × RunState × Option FaultKind) :=
  (nextOf o).map fun s => (s.mem, s.cur, s.runState, s.fault)

/-! ### Well-formedness: one ill-formed term for each check (30_encoding R61) -/

theorem test_loadConst_wrong_tag : Instr.wellFormed (.loadConst 88 5 42) = false := by decide
theorem test_writeMem_wrong_tag : Instr.wellFormed (.writeMem 94 6 5) = false := by decide
theorem test_readMem_wrong_tag : Instr.wellFormed (.readMem 34 2 1 0) = false := by decide
theorem test_unarySqrt_wrong_tag : Instr.wellFormed (.unarySqrt 9 3 4 0) = false := by decide

/-! ### Decoding (95_test_vectors §2.1 to §2.3) -/

theorem test_decode_loadConst_word :
    decodeBytes [0x5E, 0x78, 0x56, 0x34, 0x12, 0xCD, 0xAB] = .ok (.loadConst 94 0x12345678 0xABCD, 7) := by
  decide

theorem test_decode_writeMem_word :
    decodeBytes [0x58, 0x78, 0x56, 0x34, 0x12, 0xF0, 0xDE, 0xBC, 0x9A]
      = .ok (.writeMem 88 0x12345678 0x9ABCDEF0, 9) := by decide

theorem test_decode_readMem_word :
    decodeBytes [0x09, 0x78, 0x56, 0x34, 0x12, 0xF0, 0xDE, 0xBC, 0x9A, 0xEF, 0xBE]
      = .ok (.readMem 9 0x12345678 0x9ABCDEF0 0xBEEF, 11) := by decide

theorem test_decode_unarySqrt_word :
    decodeBytes [0x22, 0x78, 0x56, 0x34, 0x12, 0xF0, 0xDE, 0xBC, 0x9A, 0xEF, 0xBE]
      = .ok (.unarySqrt 34 0x12345678 0x9ABCDEF0 0xBEEF, 11) := by decide

theorem test_encode_unarySqrt :
    encode (.unarySqrt 34 0 0xFFFFFFFF 1) = [0x22, 0, 0, 0, 0, 0xFF, 0xFF, 0xFF, 0xFF, 0x01, 0x00] := by decide

theorem test_decode_ignores_bit_seven :
    decodeBytes [0xDE, 5, 0, 0, 0, 0x2A, 0] = .ok (.loadConst 94 5 42, 7) := by decide

theorem test_decode_neighbour_tags_unknown :
    [0x00, 0x80, 0x08, 0x0A, 0x21, 0x23, 0x57, 0x59, 0x5D, 0x5F, 0x7F, 0xFF].map (fun b => decodeBytes [b])
      = List.replicate 12 (.error .unknownOpcode) := by decide

theorem test_decode_truncated :
    [[0x5E], [0x5E, 5, 0, 0, 0, 0x2A], [0x58, 6, 0, 0, 0, 5, 0, 0], [0x09, 2, 0, 0, 0, 1, 0, 0, 0, 0]].map decodeBytes
      = List.replicate 4 (.error .truncatedStream) := by decide

theorem test_decodeTableWord :
    [decodeTableWord 8 0x5E, decodeTableWord 7 88, decodeTableWord 8 0x89, decodeTableWord 88 0x22, decodeTableWord 8 1]
      = [some (.loadConst 94 0 0), some (.writeMem 88 0 0), some (.readMem 9 0 0 0), some (.unarySqrt 34 0 0 0), none] := by
  decide

/-! ### One step of each instruction (95_test_vectors §2.4 to §2.8) -/

theorem test_step_loadConst_last_cell :
    view (step (running [0x5E, 0xFF, 0x03, 0, 0, 0xFF, 0xFF] [])) = some ([(1023, 65535)], 7, .running, none) := by
  decide

theorem test_step_loadConst_past_end :
    view (step (running [0x5E, 0x00, 0x04, 0, 0, 0x01, 0x00] [])) = some ([], 7, .faulted, some .memoryFault) := by
  decide

theorem test_step_writeMem_clears_cell :
    view (step (running [0x58, 3, 0, 0, 0, 9, 0, 0, 0] [(3, 7)])) = some ([], 9, .running, none) := by decide

theorem test_step_writeMem_bad_source :
    view (step (running [0x58, 3, 0, 0, 0, 0, 4, 0, 0] [(3, 7)]))
      = some ([(3, 7)], 9, .faulted, some .memoryFault) := by decide

theorem test_step_readMem_over_its_pointer :
    view (step (running [0x09, 7, 0, 0, 0, 7, 0, 0, 0, 23, 0] [(7, 1000), (8, 77), (1023, 5)]))
      = some ([(7, 5), (8, 77), (1023, 5)], 11, .running, none) := by decide

theorem test_step_readMem_sum_does_not_wrap :
    view (step (running [0x09, 9, 0, 0, 0, 8, 0, 0, 0, 0xFF, 0xFF] [(7, 1000), (8, 77), (1023, 5)]))
      = some ([(7, 1000), (8, 77), (1023, 5)], 11, .faulted, some .memoryFault) := by decide

theorem test_step_unarySqrt_last_cell :
    view (step (running [0x22, 0, 0, 0, 0, 0xE8, 0x03, 0, 0, 23, 0] [(0, 49)]))
      = some ([(0, 49), (1023, 7)], 11, .running, none) := by decide

theorem test_step_unarySqrt_sum_does_not_wrap :
    view (step (running [0x22, 0, 0, 0, 0, 0xFF, 0xFF, 0xFF, 0xFF, 1, 0] [(0, 49)]))
      = some ([(0, 49)], 11, .faulted, some .memoryFault) := by decide

theorem test_isqrt_corners :
    [0, 1, 3, 4, 15, 16, 17, 65024, 65025, 65535].map isqrt = [0, 1, 1, 2, 3, 4, 4, 254, 255, 255] := by decide

/-! ### The sequencer (95_test_vectors §2.3, §2.8, §2.9) -/

theorem test_step_unknown_beats_truncated :
    view (step (running [0x7F] [])) = some ([], 0, .faulted, some .unknownOpcode) := by decide

theorem test_step_truncated_beats_memory_fault :
    view (step (running [0x5E, 0, 4, 0, 0, 1] [])) = some ([], 0, .faulted, some .truncatedStream) := by decide

theorem test_finish_exports_range :
    ((nextOf (step { running [] [(5, 42), (6, 42)] with rangeLo := 5, rangeHi := 7 })).bind State.result)
      = some [(5, 42), (6, 42)] := by decide

theorem test_finish_range_corners :
    [(0, 0), (1024, 1024), (0, 1025), (1025, 1025), (5, 4)].map
        (fun r => (nextOf (step { running [] [] with rangeLo := r.1, rangeHi := r.2 })).map State.fault)
      = [some none, some none, some (some .memoryFault), some (some .memoryFault), some (some .memoryFault)] := by
  decide

theorem test_start_from_reset :
    view (step { State.reset with inputs := [.start [0x5E] 0 2] }) = some ([], 0, .running, none) := by decide

theorem test_fetch_word_runs_first :
    [view (step (State.reset.withFetchWord 8 0x5E)), view (step (State.reset.withFetchWord 8 0x58)),
      view (step (State.reset.withFetchWord 8 0x09)), view (step (State.reset.withFetchWord 8 0x22))]
      = [some ([], 7, .running, none), some ([], 9, .running, none), some ([], 11, .running, none),
        some ([], 11, .running, none)] := by decide

/-! ### The assembler (95_test_vectors S-A; 30_encoding R78 to R81) -/

theorem test_assemble_scenario_A :
    (assemble "LOAD_CONST A=94 B=5 C=42\nWRITE_MEM A=88 B=6 C=5\n").map Prod.fst
      = .ok [0x5E, 5, 0, 0, 0, 0x2A, 0, 0x58, 6, 0, 0, 0, 5, 0, 0, 0] := by decide

/-- AssemblerConcatenatesEncodings: a text that is accepted, with its bytes and its audit record. -/
theorem witness_assemble :
    assemble "LOAD_CONST A=94 B=5 C=42"
      = .ok ([0x5E, 5, 0, 0, 0, 0x2A, 0], [{ index := 0, operands := [(.a, 94), (.b, 5), (.c, 42)] }]) := by decide

/-- AssembledFieldsAreTheLinesOperands: a line of each shape of operands, keys out of order, a negative value. -/
theorem witness_parse_line :
    parseLine "LOAD_CONST A=94 C=42 B=5".toList = .ok (.loadConst 94 5 42, [(.a, 94), (.c, 42), (.b, 5)]) ∧
    parseLine "WRITE_MEM A=88 B=6 C=5".toList = .ok (.writeMem 88 6 5, [(.a, 88), (.b, 6), (.c, 5)]) ∧
    parseLine "READ_MEM D=-1 A=9 B=2 C=1".toList
      = .ok (.readMem 9 2 1 0xFFFF, [(.d, -1), (.a, 9), (.b, 2), (.c, 1)]) ∧
    parseLine "UNARY_SQRT A=34 B=3 C=4 D=0".toList
      = .ok (.unarySqrt 34 3 4 0, [(.a, 34), (.b, 3), (.c, 4), (.d, 0)]) := by decide

theorem test_assemble_any_key_order_and_sign :
    (assemble "READ_MEM D=-1 C=1\tB=2 A=9").map Prod.fst
      = .ok [0x09, 2, 0, 0, 0, 1, 0, 0, 0, 0xFF, 0xFF] := by decide

theorem test_assemble_refusals :
    ["\n", "NOP A=1", "LOAD_CONST A=94 B=5", "LOAD_CONST A=88 B=5 C=1", "LOAD_CONST A=94 B=5 C=1 D=0",
        "LOAD_CONST A=94 B=5 B=5 C=1", "LOAD_CONST A=94 B=5 C=65536", "LOAD_CONST A=94 B 5 C=1", "WRITE_MEM A=88 B=6 C=0x5"].map
        (fun t => (assemble t).map Prod.fst)
      = List.replicate 9 (.error .parseError) := by decide

/-! ### Witnesses: the hypotheses of each statement are met -/

/-- Codec statements: a well-formed instruction of each row, bytes that decode, and each tag at its length. -/
theorem witness_codec :
    Instr.wellFormed (.loadConst 94 5 42) = true ∧ Instr.wellFormed (.writeMem 88 6 5) = true ∧
    Instr.wellFormed (.readMem 9 2 1 0) = true ∧ Instr.wellFormed (.unarySqrt 34 3 4 0) = true ∧
    decodeBytes [0x5E, 5, 0, 0, 0, 42, 0] = .ok (.loadConst 94 5 42, 7) ∧
    decode [0, 0x58, 6, 0, 0, 0, 5, 0, 0, 0] 1 = .ok (.writeMem 88 6 5, 9) ∧
    tagOf 0x5E = 94 ∧ tagOf 0xD8 = 88 ∧ tagOf 0x09 = 9 ∧ tagOf 0xA2 = 34 ∧
    7 ≤ [0x5E, (0 : Byte), 0, 0, 0, 0, 0].length ∧ 9 ≤ [0x58, (0 : Byte), 0, 0, 0, 0, 0, 0, 0].length ∧
    11 ≤ [0x09, (0 : Byte), 0, 0, 0, 0, 0, 0, 0, 0, 0].length ∧
    11 ≤ [0x22, (0 : Byte), 0, 0, 0, 0, 0, 0, 0, 0, 0].length ∧
    (tagOf 0x7F ≠ 94 ∧ tagOf 0x7F ≠ 88 ∧ tagOf 0x7F ≠ 9 ∧ tagOf 0x7F ≠ 34) := by decide

/-- UnknownOpcodeExactlyForUnknownTags, second part. -/
theorem witness_unknown_opcode :
    (running [0x7F] []).turn ∧ (running [0x7F] []).ibuf[(running [0x7F] []).cur]? = some 0x7F := by decide

/-- TruncatedStreamExactlyForShortTails: each tag one byte short, and a buffer at its end. -/
theorem witness_truncated_stream :
    (∀ buf ∈ [[(0x5E : Byte), 0, 0, 0, 0, 0], [0x58, 0, 0, 0, 0, 0, 0, 0], [0x09, 0, 0, 0, 0, 0, 0, 0, 0, 0],
        [0x22, 0, 0, 0, 0, 0, 0, 0, 0, 0]], ∃ b0 ∈ buf.head?,
      (running buf []).turn ∧ (running buf []).ibuf[(running buf []).cur]? = some b0 ∧
      ((tagOf b0 = 94 ∧ (running buf []).len - (running buf []).cur < 7) ∨
        (tagOf b0 = 88 ∧ (running buf []).len - (running buf []).cur < 9) ∨
        (tagOf b0 = 9 ∧ (running buf []).len - (running buf []).cur < 11) ∨
        (tagOf b0 = 34 ∧ (running buf []).len - (running buf []).cur < 11))) ∧
    (running [] []).turn ∧ (running [] []).cur = (running [] []).len := by decide

/-- MemoryPrimitives: the last address inside, the first outside, an empty memory. -/
theorem witness_memory_primitives :
    1023 < State.reset.cap ∧ State.reset.cap ≤ 1024 ∧ State.reset.mem = [] := by decide

/-- The four instruction statements: the last addresses inside, and each way out of range. -/
theorem witness_instructions :
    let s := running [] [(7, 1000)];
    (absolute 1023 < s.cap ∧ s.cap ≤ absolute 1024) ∧
    ((s.cell (absolute 7)).toNat + (23 : Off).toNat < s.cap ∧ s.cap ≤ (s.cell (absolute 7)).toNat + (24 : Off).toNat) ∧
    (basePlusOffset 1000 23 < s.cap ∧ s.cap ≤ basePlusOffset 1000 24 ∧ s.cap ≤ basePlusOffset 0xFFFFFFFF 1) := by
  decide

/-- ExecWritesItsOneCellOrFaults: all checked addresses inside, and one outside. -/
theorem witness_checked_addresses :
    let s := running [] [(7, 1000)];
    (∀ x ∈ checkedAddresses s (.readMem 9 1023 7 23), x < s.cap) ∧
    (∃ x ∈ checkedAddresses s (.readMem 9 1023 7 24), s.cap ≤ x) := by decide

/-- ExecDependsOnMemoryAndCapacityOnly: two different states of one capacity and one memory. -/
theorem witness_same_memory :
    (running [1, 2] [(3, 4)]).cap = ({ State.reset with mem := [(3, 4)] }).cap ∧
    (running [1, 2] [(3, 4)]).mem = ({ State.reset with mem := [(3, 4)] }).mem ∧
    running [1, 2] [(3, 4)] ≠ { State.reset with mem := [(3, 4)] } := by decide

/-- IsqrtIsFloorSquareRoot: a number, the root it has, a smaller number. -/
theorem witness_isqrt : 4 * 4 ≤ 24 ∧ 24 < (4 + 1) * (4 + 1) ∧ 2 ≤ 24 ∧ 23 ≤ 24 ∧ 24 ≤ 65535 := by decide

/-- StepRunsDecodedInstruction, CursorAdvancesByDecodedLength, InstructionAppliesFullyOrNotAtAll,
FaultPriorityWithinAStep: the sequencer's turn at the end, at a byte that does not decode, at an instruction whose
addresses are inside and at one whose address is not. -/
theorem witness_step :
    ((running [] []).turn ∧ (running [] []).cur = (running [] []).len) ∧
    (let s := running [0x7F] [];
      s.turn ∧ s.cur < s.len ∧ decode s.ibuf s.cur = .error .unknownOpcode) ∧
    (let s := running [0x5E, 0xFF, 3, 0, 0, 1, 0] [];
      s.turn ∧ decode s.ibuf s.cur = .ok (.loadConst 94 1023 1, 7) ∧
      ∀ x ∈ checkedAddresses s (.loadConst 94 1023 1), x < s.cap) ∧
    (let s := running [0x5E, 0, 4, 0, 0, 1, 0] [];
      s.turn ∧ decode s.ibuf s.cur = .ok (.loadConst 94 1024 1, 7) ∧
      ∃ x ∈ checkedAddresses s (.loadConst 94 1024 1), s.cap ≤ x) := by decide

/-- FinishPresentsRangeOrFaults, InvertedRangeFaults, ResultPresentedExactlyInHalted: a range up to CAP, one past it, an
inverted one, a halted state. -/
theorem witness_finish :
    (let s := { running [] [] with rangeLo := 1024, rangeHi := 1024 };
      s.turn ∧ s.cur = s.len ∧ s.rangeLo ≤ s.rangeHi ∧ s.rangeHi ≤ s.cap) ∧
    (let s := { running [] [] with rangeLo := 0, rangeHi := 1025 };
      s.turn ∧ s.cur = s.len ∧ s.rangeLo ≤ s.rangeHi ∧ s.cap < s.rangeHi) ∧
    (let s := { running [] [] with rangeLo := 5, rangeHi := 4 };
      s.turn ∧ s.cur = s.len ∧ s.rangeHi < s.rangeLo) ∧
    ({ running [] [] with runState := .halted } : State).runState = .halted ∧
    (running [] []).runState ≠ .halted := by decide

/-- FaultTransitionChangesNothingElse: a step that ends in Faulted, and a Faulted state asked for a start. -/
theorem witness_fault_transition :
    (running [0x7F] []).turn ∧
    (nextOf (step (running [0x7F] []))).map State.runState = some .faulted ∧
    (let s := ({ State.reset with runState := .faulted, fault := some .memoryFault, inputs := [.start [] 0 0] } : State);
      s.runState = .faulted ∧ s.input ≠ .reset) := by decide

/-- StartBeginsTheRun, ResetRequestReinitialises, EventsWithoutAnEdgeChangeNothing: each request where it has an edge
and where it has none. -/
theorem witness_requests :
    (let s := ({ State.reset with inputs := [.start [0x5E] 0 2] } : State);
      s.runState = .ready ∧ s.input = .start [0x5E] 0 2) ∧
    ({ running [0x5E] [(1, 1)] with inputs := [.reset] } : State).input = .reset ∧
    (let s := ({ State.reset with runState := .halted, inputs := [.start [] 0 0] } : State);
      s.terminal ∧ s.input ≠ .reset) ∧
    (let s := ({ running [] [] with inputs := [.start [] 0 0] } : State);
      s.runState = .running ∧ s.input = .start [] 0 0) ∧
    (State.reset.runState = .ready ∧ State.reset.input = .idle) := by decide

/-- RunStateFollowsItsEdges: a step into each run state. -/
theorem witness_run_state_edges :
    [nextOf (step (running [0x5E, 0, 0, 0, 0, 0, 0] [])), nextOf (step (running [] [])),
      nextOf (step (running [0] [])), nextOf (step State.reset)].map (Option.map State.runState)
      = [some .running, some .halted, some .faulted, some .ready] := by decide

/-- InstructionSpaceIsNeverWritten: a step of a run that is not reset. -/
theorem witness_instruction_space :
    let s := running [0x5E, 0, 0, 0, 0, 9, 0] [];
    (nextOf (step s)).isSome ∧ s.runState ≠ .ready ∧ s.input ≠ .reset := by decide

/-- StepKeepsTheInvariant: a state in the middle of a run meets it, and a step from it answers a next state. -/
theorem witness_invariant :
    (running [0x5E, 0, 0, 0, 0, 9, 0] [(1, 9)]).Inv ∧
    (nextOf (step (running [0x5E, 0, 0, 0, 0, 9, 0] [(1, 9)]))).isSome := by
  refine ⟨⟨?_, ?_, ?_, ?_, ?_, ?_, ?_⟩, ?_⟩ <;> decide

/-- StepStopsOnlyBeyondTheBuffer: a cursor at the end, and one beyond it. -/
theorem witness_cursor_bounds :
    ((running [] []).runState = .running → (running [] []).cur ≤ (running [] []).len) ∧
    (let s := { running [] [] with cur := 1 };
      s.turn ∧ s.len < s.cur) := by decide

/-- EveryRunTerminates, RunDependsOnItsArgumentsOnly: a run left alone, and two Ready instances that differ. -/
theorem witness_runs :
    (let s := running [0x7F] [];
      s.runState = .running ∧ s.inputs = [] ∧ s.cur ≤ s.len) ∧
    (let s := ({ State.reset with inputs := [.start [0x7F] 0 1] } : State);
      let s' := { s with mem := [(3, 4)], cur := 9, fault := some .memoryFault };
      s.runState = .ready ∧ s'.runState = .ready ∧ s'.cap = s.cap ∧ s'.inputs = s.inputs ∧
      s.input = .start [0x7F] 0 1 ∧ s' ≠ s) := by decide

/-- NegativeExportBoundIsRefused, AssemblerMasksSignedValues: bounds and values at the edges of their clauses. -/
theorem witness_signed_values :
    ((-1 : Int) < 0 ∧ (0 : Int) = ((0 : Nat) : Int)) ∧
    (-(2 ^ (16 - 1) : Int) ≤ -32768 ∧ (65535 : Int) ≤ (2 ^ 16 : Int) - 1) ∧
    ((-32769 : Int) < -(2 ^ (16 - 1) : Int) ∧ (2 ^ 16 : Int) - 1 < 65536) ∧
    fieldOf 16 (-32768) = some 0x8000 ∧ fieldOf 16 65536 = none := by decide

end Sys2Proof.Tests
end

/-! ## The state family (10_state R25, R35): the cursor's motion and the presented result -/

namespace Sys2Proof

/-- The three values of the length table (30_encoding R68). -/
theorem Format.length_cases (f : Format) : f.length = 7 ∨ f.length = 9 ∨ f.length = 11 := by
  cases f <;> decide

theorem Instr.length_cases (i : Instr) : i.length = 7 ∨ i.length = 9 ∨ i.length = 11 :=
  Format.length_cases _

end Sys2Proof

namespace Sys2Proof.Machine

/-! ### The sequencer's turn, by the decoder's answer (40_sequencer R92) -/

/-- On its turn, the sequencer runs the decoded instruction with the cursor already past it. -/
theorem step_of_decode_ok {s : State} {i : Instr} {n : Nat} (ht : s.turn)
    (hd : decode s.ibuf s.cur = .ok (i, n)) : step s = exec i (s.popInput.advance n) := by
  obtain ⟨hrun, hidle⟩ := ht
  have hin : s.cur < s.len := by
    obtain ⟨hn, hle⟩ := decode_inside hd
    have h7 := i.length_pos
    simp only [State.len]
    omega
  rw [step_idle_running hidle hrun]
  exact runStep_ok (s := s.popInput) hin hd

/-- On its turn, the sequencer takes the decoder's fault with the cursor where it was. -/
theorem step_of_decode_error {s : State} {k : FaultKind} (ht : s.turn) (hin : s.cur < s.len)
    (hd : decode s.ibuf s.cur = .error k) : step s = .next (s.popInput.raise k) := by
  obtain ⟨hrun, hidle⟩ := ht
  rw [step_idle_running hidle hrun]
  exact runStep_error (s := s.popInput) hin hd

/-! ### The cursor (10_state R25) -/

/-- No instruction writes the cursor, whether it has its effect or faults. -/
theorem exec_keeps_cur (i : Instr) (s : State) : ∃ t, exec i s = .next t ∧ t.cur = s.cur := by
  rw [exec_eq]
  split
  · exact ⟨_, rfl, s.setMem_cur _⟩
  · exact ⟨_, rfl, s.raise_cur _⟩

/-- Settles O22: `step` advances the cursor by the decoded length before `exec`, which keeps it
(`exec_keeps_cur`), and a decode fault is taken in the state as it stood (`step_of_decode_error`). -/
theorem cursorAdvancesByDecodedLength : Obligations.CursorAdvancesByDecodedLength := by
  refine ⟨fun s i n ht hd => ?_, fun s k ht hin hd => ?_, exec_keeps_cur⟩
  · obtain ⟨t, hexec, hcur⟩ := exec_keeps_cur i (s.popInput.advance n)
    simp only [State.advance_cur, State.popInput_cur] at hcur
    have hlen : n = 7 ∨ n = 9 ∨ n = 11 := (decode_inside hd).1 ▸ i.length_cases
    exact ⟨t, (step_of_decode_ok ht hd).trans hexec, hcur, by omega, hlen⟩
  · exact ⟨_, step_of_decode_error ht hin hd, by simp⟩

/-! ### The result (10_state R35) -/

/-- In Halted the result pairs each address of the range, in rising order, with its cell. -/
theorem State.result_of_halted {s : State} (h : s.runState = .halted) :
    s.result = some ((List.range' s.rangeLo (s.rangeHi - s.rangeLo)).map fun a => (a, s.cell a)) :=
  if_pos h

/-- In no other run state is there a result. -/
theorem State.result_of_not_halted {s : State} (h : s.runState ≠ .halted) : s.result = none :=
  if_neg h

/-- Settles O26: in Halted, the `k`-th address of the range is `RANGE_LO + k`. -/
theorem resultPresentedExactlyInHalted : Obligations.ResultPresentedExactlyInHalted := by
  refine fun s => ⟨fun h => ⟨_, State.result_of_halted h, by simp, fun k hk => ?_⟩,
    State.result_of_not_halted⟩
  have haddr : (List.range' s.rangeLo (s.rangeHi - s.rangeLo))[k]? = some (s.rangeLo + k) := by
    simp [List.getElem?_range' hk]
  rw [List.getElem?_map, haddr, Option.map_some]

end Sys2Proof.Machine

/-! ## The memory family (20_memory R49, R56): the memory primitives and the instruction space -/

namespace Sys2Proof.Machine

/-! ### The memory primitives by the bounds check (20_memory R49) -/

/-- Replacing the data memory changes nothing else of the state. -/
theorem State.setMem_sameButMem (s : State) (m : Memory) : SameButMem s (s.setMem m) := by
  constructor <;> rfl

/-- Inside the capacity the bounds check passes. -/
theorem check_inside {s : State} {a : Nat} (h : a < s.cap) : check s a = .ok () := by
  rw [check_eq, if_pos h]

/-- At or above the capacity the bounds check faults. -/
theorem check_outside {s : State} {a : Nat} (h : s.cap ≤ a) :
    check s a = .error .memoryFault := by
  rw [check_eq, if_neg h.not_gt]

/-- Inside the capacity MemRead gives the cell. -/
theorem memRead_inside {s : State} {a : Nat} (h : a < s.cap) : memRead s a = .ok (s.cell a) := by
  rw [memRead_eq, if_pos h]

/-- At or above the capacity MemRead faults. -/
theorem memRead_outside {s : State} {a : Nat} (h : s.cap ≤ a) :
    memRead s a = .error .memoryFault := by
  rw [memRead_eq, if_neg h.not_gt]

/-- Inside the capacity MemWrite gives the state with the memory's write at that address. -/
theorem memWrite_inside {s : State} {a : Nat} (h : a < s.cap) (v : Cell) :
    memWrite s a v = .ok (s.setMem (s.mem.write a v)) := by
  rw [memWrite_eq, if_pos h]

/-- At or above the capacity MemWrite faults and no state comes of it. -/
theorem memWrite_outside {s : State} {a : Nat} (h : s.cap ≤ a) (v : Cell) :
    memWrite s a v = .error .memoryFault := by
  rw [memWrite_eq, if_neg h.not_gt]

/-- What MemWrite stored is what MemRead then gives. -/
theorem memRead_after_write {s : State} {a : Nat} (h : a < s.cap) (v : Cell) :
    memRead (s.setMem (s.mem.write a v)) a = .ok v := by
  have hcap : a < (s.setMem (s.mem.write a v)).cap := h
  rw [memRead_inside hcap, State.cell_write, if_pos rfl]

/-- A memory that lists no cell reads 0 everywhere. -/
theorem State.cell_of_mem_nil {s : State} (h : s.mem = []) (a : Nat) : s.cell a = 0 := by
  rw [State.cell, h, Memory.read_nil]

/-- Settles O10: the three primitives on either side of the capacity, with `State.cell_write` for the
one cell replaced and `memRead_after_write` for the value read back. -/
theorem memoryPrimitives : Obligations.MemoryPrimitives := by
  refine ⟨fun s a v => ⟨fun hin => ?_, fun hout => ?_⟩, fun s a h => State.cell_of_mem_nil h a⟩
  · exact ⟨check_inside hin, memRead_inside hin, _, memWrite_inside hin v,
      fun x => s.cell_write a x v, s.setMem_sameButMem _, memRead_after_write hin v⟩
  · exact ⟨check_outside hout, memRead_outside hout, memWrite_outside hout v⟩

/-! ### The instruction space (20_memory R56) -/

/-- The two states hold the same inputs of a run: the buffer, the export range and the capacity. -/
structure SameRunInputs (s t : State) : Prop where
  ibuf : t.ibuf = s.ibuf
  rangeLo : t.rangeLo = s.rangeLo
  rangeHi : t.rangeHi = s.rangeHi
  cap : t.cap = s.cap

/-- No instruction writes the inputs of the run: its one store is to the data memory. -/
theorem exec_keeps_runInputs {i : Instr} {s t : State} (h : exec i s = .next t) :
    SameRunInputs s t := by
  obtain ⟨rfl, -⟩ | ⟨rfl, -⟩ := exec_cases h
  · exact ⟨s.setMem_ibuf _, s.setMem_rangeLo _, s.setMem_rangeHi _, s.setMem_cap _⟩
  · exact ⟨s.raise_ibuf _, s.raise_rangeLo _, s.raise_rangeHi _, s.raise_cap _⟩

/-- The sequencer's step keeps the inputs of the run, whether it finishes, faults or executes. -/
theorem runStep_keeps_runInputs {s t : State} (h : runStep s = .next t) : SameRunInputs s t := by
  obtain ⟨-, rfl⟩ | ⟨-, k, -, rfl⟩ | ⟨i, n, -, hexec⟩ := runStep_cases h
  · exact ⟨s.finish_ibuf, s.finish_rangeLo, s.finish_rangeHi, s.finish_cap⟩
  · exact ⟨s.raise_ibuf k, s.raise_rangeLo k, s.raise_rangeHi k, s.raise_cap k⟩
  · obtain ⟨hbuf, hlo, hhi, hcap⟩ := exec_keeps_runInputs hexec
    exact ⟨hbuf, hlo, hhi, hcap⟩

/-- Once a run has begun, only a reset changes its inputs: a start request is ignored outside Ready. -/
theorem step_keeps_runInputs {s t : State} (h : step s = .next t) (hready : s.runState ≠ .ready)
    (hreset : s.input ≠ .reset) : SameRunInputs s t := by
  obtain ⟨hin, -⟩ | ⟨buf, lo, hi, -, rfl⟩ | ⟨-, -, rfl⟩ | ⟨-, -, hrun⟩ := step_cases h
  · exact absurd hin hreset
  · rw [State.start_ignored s.popInput hready]
    exact ⟨s.popInput_ibuf, s.popInput_rangeLo, s.popInput_rangeHi, s.popInput_cap⟩
  · exact ⟨s.popInput_ibuf, s.popInput_rangeLo, s.popInput_rangeHi, s.popInput_cap⟩
  · obtain ⟨hbuf, hlo, hhi, hcap⟩ := runStep_keeps_runInputs hrun
    exact ⟨hbuf, hlo, hhi, hcap⟩

/-- Settles O34: every instruction answers a next state (`exec_keeps_cur`), and neither it nor a step
short of a reset writes the inputs of the run. -/
theorem instructionSpaceIsNeverWritten : Obligations.InstructionSpaceIsNeverWritten := by
  refine ⟨fun i s => ?_, fun s t h hready hreset => ?_⟩
  · obtain ⟨t, hexec, -⟩ := exec_keeps_cur i s
    exact ⟨t, hexec, (exec_keeps_runInputs hexec).ibuf⟩
  · obtain ⟨hbuf, hlo, hhi, hcap⟩ := step_keeps_runInputs h hready hreset
    exact ⟨hbuf, hlo, hhi, hcap⟩

end Sys2Proof.Machine

/-! ## The encoding family (30_encoding R68 to R74): the round trip, the length table, the decode faults -/

namespace Sys2Proof

/-! ### Tags (30_encoding R68) -/

/-- The operation a tag selects is the one whose tag it is. -/
theorem Opcode.ofTag_eq_some_iff {t : Tag} {o : Opcode} : Opcode.ofTag t = some o ↔ t = o.tag :=
  ⟨Opcode.tag_of_ofTag, fun h => h ▸ Opcode.ofTag_tag o⟩

/-- A statement about some operation, row by row of the length table. -/
theorem Opcode.exists_iff {p : Opcode → Prop} :
    (∃ o, p o) ↔ p .loadConst ∨ p .writeMem ∨ p .readMem ∨ p .unarySqrt := by
  constructor
  · rintro ⟨o, h⟩
    cases o with
    | loadConst => exact .inl h
    | writeMem => exact .inr (.inl h)
    | readMem => exact .inr (.inr (.inl h))
    | unarySqrt => exact .inr (.inr (.inr h))
  · rintro (h | h | h | h) <;> exact ⟨_, h⟩

/-! ### The decoder's three answers, by tag and length (30_encoding R69) -/

section Answers

variable {b0 : Byte} {rest : List Byte} {o : Opcode}

theorem decodeBytes_of_unknown (h : Opcode.ofTag (tagOf b0) = none) :
    decodeBytes (b0 :: rest) = .error .unknownOpcode := by
  rw [decodeBytes_cons, h]

theorem decodeBytes_of_short (ht : tagOf b0 = o.tag) (hlen : (b0 :: rest).length < o.length) :
    decodeBytes (b0 :: rest) = .error .truncatedStream := by
  rw [decodeBytes_cons, ht, Opcode.ofTag_tag]
  exact if_pos hlen

theorem decodeBytes_of_full (ht : tagOf b0 = o.tag) (hlen : o.length ≤ (b0 :: rest).length) :
    decodeBytes (b0 :: rest) = .ok (extractFields o o.tag (b0 :: rest), o.length) := by
  rw [decodeBytes_cons, ht, Opcode.ofTag_tag]
  exact if_neg hlen.not_gt

/-- On a nonempty sequence a decode is unknown, short or full. -/
theorem decodeBytes_answers (b0 : Byte) (rest : List Byte) :
    Opcode.ofTag (tagOf b0) = none ∨
    (∃ o : Opcode, tagOf b0 = o.tag ∧ (b0 :: rest).length < o.length) ∨
    (∃ o : Opcode, tagOf b0 = o.tag ∧ o.length ≤ (b0 :: rest).length) := by
  cases ho : Opcode.ofTag (tagOf b0) with
  | none => exact .inl rfl
  | some o =>
    have ht := Opcode.tag_of_ofTag ho
    obtain hshort | hfull := lt_or_ge (b0 :: rest).length o.length
    · exact .inr (.inl ⟨o, ht, hshort⟩)
    · exact .inr (.inr ⟨o, ht, hfull⟩)

/-- UnknownOpcode says that the tag selects no operation, and nothing about the bytes that follow (R70). -/
theorem decodeBytes_unknown_iff :
    decodeBytes (b0 :: rest) = .error .unknownOpcode ↔ Opcode.ofTag (tagOf b0) = none := by
  refine ⟨fun h => ?_, decodeBytes_of_unknown⟩
  obtain hnone | ⟨o, ht, hlen⟩ | ⟨o, ht, hlen⟩ := decodeBytes_answers b0 rest
  · exact hnone
  · rw [decodeBytes_of_short ht hlen] at h; cases h
  · rw [decodeBytes_of_full ht hlen] at h; cases h

/-- TruncatedStream says that the tag is some operation's and the bytes are fewer than its length (R71). -/
theorem decodeBytes_truncated_iff :
    decodeBytes (b0 :: rest) = .error .truncatedStream ↔
      ∃ o : Opcode, tagOf b0 = o.tag ∧ (b0 :: rest).length < o.length := by
  refine ⟨fun h => ?_, fun ⟨o, ht, hlen⟩ => decodeBytes_of_short ht hlen⟩
  obtain hnone | hshort | ⟨o, ht, hlen⟩ := decodeBytes_answers b0 rest
  · rw [decodeBytes_of_unknown hnone] at h; cases h
  · exact hshort
  · rw [decodeBytes_of_full ht hlen] at h; cases h

end Answers

/-! ### Operand fields of an encoding (30_encoding R73) -/

/-- A `w`-bit operand written out in the `n` bytes of a field is read back from that field. -/
theorem FieldPlace.ofNat_value_encoded {w n : Nat} (hw : 256 ^ n = 2 ^ w) (b0 : Byte)
    (pre suf : List Byte) (x : BitVec w) :
    BitVec.ofNat w (FieldPlace.value ⟨pre.length + 1, n⟩ (b0 :: (pre ++ (leBytes n x.toNat ++ suf)))) =
      x := by
  rw [FieldPlace.value_encoded, hw, Nat.mod_eq_of_lt x.isLt, BitVec.ofNat_toNat, BitVec.setWidth_eq]

theorem placeB_ofNat_encoded (b0 : Byte) (b : Addr) (suf : List Byte) :
    BitVec.ofNat 32 (placeB.value (b0 :: (leBytes 4 b.toNat ++ suf))) = b :=
  FieldPlace.ofNat_value_encoded (by decide) b0 [] suf b

/-- Field C, of two bytes in format LC and of four in WM and RS. -/
theorem placeC_ofNat_encoded {f : Format} {w : Nat} (hw : 256 ^ (placeC f).bytes = 2 ^ w) (b0 : Byte)
    (b : Addr) (c : BitVec w) (suf : List Byte) :
    BitVec.ofNat w ((placeC f).value
      (b0 :: (leBytes 4 b.toNat ++ (leBytes (placeC f).bytes c.toNat ++ suf)))) = c := by
  have hplace : placeC f = ⟨(leBytes 4 b.toNat).length + 1, (placeC f).bytes⟩ := by cases f <;> rfl
  rw [hplace]
  exact FieldPlace.ofNat_value_encoded hw b0 _ suf c

theorem placeD_ofNat_encoded (b0 : Byte) (b c : Addr) (d : Off) (suf : List Byte) :
    BitVec.ofNat 16 (placeD.value
      (b0 :: (leBytes 4 b.toNat ++ (leBytes 4 c.toNat ++ (leBytes 2 d.toNat ++ suf))))) = d := by
  rw [← List.append_assoc (leBytes 4 b.toNat)]
  exact FieldPlace.ofNat_value_encoded (n := 2) (by decide) b0
    (leBytes 4 b.toNat ++ leBytes 4 c.toNat) suf d

/-! ### Decoding an encoding (30_encoding R74) -/

theorem encode_length (i : Instr) : (encode i).length = i.length := by
  cases i with
  | loadConst a b c => exact Laws.EncodedLength.loadConst a b c
  | writeMem a b c => exact Laws.EncodedLength.writeMem a b c
  | readMem a b c d => exact Laws.EncodedLength.readMem a b c d
  | unarySqrt a b c d => exact Laws.EncodedLength.unarySqrt a b c d

/-- Byte 0 of an encoding is the tag byte of the operation. -/
theorem encode_eq_cons (i : Instr) : ∃ fields, encode i = tagByte i.opcode :: fields := by
  cases i <;> exact ⟨_, rfl⟩

/-- The operand fields of a well-formed instruction's encoding are its operands, whatever follows it. -/
theorem extractFields_encode {i : Instr} (hwf : i.wellFormed = true) (rest : List Byte) :
    extractFields i.opcode i.opcode.tag (encode i ++ rest) = i := by
  cases i with
  | loadConst a b c =>
    obtain rfl : a = 94 := by simpa [Instr.wellFormed] using hwf
    simp only [encode, List.cons_append, List.append_assoc]
    exact congrArg₂ (Instr.loadConst 94) (placeB_ofNat_encoded _ b _)
      (placeC_ofNat_encoded (f := .lc) (by decide) _ b c rest)
  | writeMem a b c =>
    obtain rfl : a = 88 := by simpa [Instr.wellFormed] using hwf
    simp only [encode, List.cons_append, List.append_assoc]
    exact congrArg₂ (Instr.writeMem 88) (placeB_ofNat_encoded _ b _)
      (placeC_ofNat_encoded (f := .wm) (by decide) _ b c rest)
  | readMem a b c d =>
    obtain rfl : a = 9 := by simpa [Instr.wellFormed] using hwf
    simp only [encode, List.cons_append, List.append_assoc]
    exact congr (congrArg₂ (Instr.readMem 9) (placeB_ofNat_encoded _ b _)
      (placeC_ofNat_encoded (f := .rs) (by decide) _ b c _)) (placeD_ofNat_encoded _ b c d rest)
  | unarySqrt a b c d =>
    obtain rfl : a = 34 := by simpa [Instr.wellFormed] using hwf
    simp only [encode, List.cons_append, List.append_assoc]
    exact congr (congrArg₂ (Instr.unarySqrt 34) (placeB_ofNat_encoded _ b _)
      (placeC_ofNat_encoded (f := .rs) (by decide) _ b c _)) (placeD_ofNat_encoded _ b c d rest)

/-- The decoder reads an encoding back and consumes exactly it. -/
theorem decodeBytes_encode_append {i : Instr} (hwf : i.wellFormed = true) (rest : List Byte) :
    decodeBytes (encode i ++ rest) = .ok (i, (encode i).length) := by
  have hfields := extractFields_encode hwf rest
  have hlen : i.opcode.length ≤ (encode i ++ rest).length := by
    rw [List.length_append, encode_length]
    exact Nat.le_add_right _ _
  obtain ⟨fields, hcons⟩ := encode_eq_cons i
  rw [encode_length]
  rw [hcons, List.cons_append] at hfields hlen ⊢
  rw [decodeBytes_of_full (tagOf_tagByte _) hlen, hfields]
  rfl

/-- Settles O2: `decodeBytes_encode_append` for the round trip, and the family `EncodedLength` for the length
of each operation. -/
theorem decodeOfEncodeIsTheInstruction : Obligations.DecodeOfEncodeIsTheInstruction := by
  refine fun i rest hwf => ⟨decodeBytes_encode_append hwf rest, ?_⟩
  rw [encode_length]
  cases i <;> rfl

/-! ### No byte past the length is read (30_encoding R68, S-P2) -/

/-- A field within the first `n` bytes is the same when only those are kept. -/
theorem FieldPlace.value_take {p : FieldPlace} {n : Nat} (h : p.offset + p.bytes ≤ n) (bs : List Byte) :
    p.value (bs.take n) = p.value bs := by
  have hbytes : p.bytes ≤ n - p.offset := by omega
  rw [FieldPlace.value, FieldPlace.value, List.drop_take, List.take_take, Nat.min_eq_left hbytes]

/-- The operand fields of an operation lie within its length. -/
theorem extractFields_take (o : Opcode) (a : Tag) (bs : List Byte) :
    extractFields o a (bs.take o.length) = extractFields o a bs := by
  have hB : placeB.value (bs.take o.length) = placeB.value bs :=
    FieldPlace.value_take (by cases o <;> decide) bs
  have hC : (placeC o.format).value (bs.take o.length) = (placeC o.format).value bs :=
    FieldPlace.value_take (by cases o <;> decide) bs
  have hD (h : 11 ≤ o.length) : placeD.value (bs.take o.length) = placeD.value bs :=
    FieldPlace.value_take h bs
  cases o with
  | loadConst => simp only [extractFields, hB, hC]
  | writeMem => simp only [extractFields, hB, hC]
  | readMem => simp only [extractFields, hB, hC, hD (le_refl _)]
  | unarySqrt => simp only [extractFields, hB, hC, hD (le_refl _)]

/-- A successful decode depends on the bytes it consumes only: whatever stands after them, it is the same. -/
theorem decodeBytes_take_append {bs : List Byte} {i : Instr} {n : Nat} (h : decodeBytes bs = .ok (i, n))
    (tail : List Byte) : decodeBytes (bs.take n ++ tail) = .ok (i, n) := by
  obtain ⟨b0, rest, rfl, ho, rfl, hle, hi⟩ := decodeBytes_ok h
  have htake : ((b0 :: rest).take i.length ++ tail).take i.length = (b0 :: rest).take i.length :=
    List.take_left' (by rw [List.length_take, Nat.min_eq_left hle])
  have hlen : i.length ≤ ((b0 :: rest).take i.length ++ tail).length := by
    rw [List.length_append, List.length_take, Nat.min_eq_left hle]
    exact Nat.le_add_right _ _
  have hfields : extractFields i.opcode i.opcode.tag ((b0 :: rest).take i.length ++ tail) = i := by
    rw [← extractFields_take, ← Instr.length, htake, Instr.length, extractFields_take, ← hi]
  obtain ⟨m, hm⟩ : ∃ m, i.length = m + 1 := Nat.exists_eq_add_of_le' (by have := i.length_pos; omega)
  have hcons : (b0 :: rest).take i.length ++ tail = b0 :: (rest.take m ++ tail) := by
    rw [hm, List.take_succ_cons, List.cons_append]
  rw [hcons] at hlen hfields ⊢
  rw [decodeBytes_of_full (Opcode.tag_of_ofTag ho) hlen, hfields]
  rfl

/-- A row of the length table: with the operation's tag and its length in bytes, the decode is that operation
of that length, and the bytes past the length do not matter. -/
theorem decodeBytes_row (o : Opcode) {b0 : Byte} {rest : List Byte} (ht : tagOf b0 = o.tag)
    (hlen : o.length ≤ (b0 :: rest).length) :
    decodeBytes (b0 :: rest) = .ok (extractFields o o.tag (b0 :: rest), o.length) ∧
    ∀ tail, decodeBytes ((b0 :: rest).take o.length ++ tail) =
      .ok (extractFields o o.tag (b0 :: rest), o.length) :=
  ⟨decodeBytes_of_full ht hlen, decodeBytes_take_append (decodeBytes_of_full ht hlen)⟩

/-- Settles O5: one `decodeBytes_row` for each operation, and `Opcode.ofTag_none` for the other tags. -/
theorem lengthTable : Obligations.LengthTable := by
  refine fun b0 rest => ⟨fun ht hlen => ?_, fun ht hlen => ?_, fun ht hlen => ?_, fun ht hlen => ?_,
    fun h94 h88 h9 h34 => decodeBytes_of_unknown (Opcode.ofTag_none.mpr ⟨h94, h88, h9, h34⟩)⟩
  · exact ⟨_, _, decodeBytes_row .loadConst ht hlen⟩
  · exact ⟨_, _, decodeBytes_row .writeMem ht hlen⟩
  · exact ⟨_, _, _, decodeBytes_row .readMem ht hlen⟩
  · exact ⟨_, _, _, decodeBytes_row .unarySqrt ht hlen⟩

end Sys2Proof

namespace Sys2Proof.Machine

/-! ### The two decode faults in a step (60_exceptions R131, R132) -/

/-- Taking a fault stops the state by that fault. -/
theorem State.raise_stoppedBy (s : State) (k : FaultKind) : StoppedBy k s (s.raise k) := by
  constructor <;> rfl

/-- At a byte of the buffer, decode reads the bytes from it on, as many as remain. -/
theorem decode_at_byte {s : State} {b0 : Byte} (hb : s.ibuf[s.cur]? = some b0) :
    ∃ rest, decode s.ibuf s.cur = decodeBytes (b0 :: rest) ∧ (b0 :: rest).length = s.len - s.cur := by
  obtain ⟨hlt, rfl⟩ := List.getElem?_eq_some_iff.mp hb
  refine ⟨s.ibuf.drop (s.cur + 1), ?_, ?_⟩
  · rw [decode, List.drop_eq_getElem_cons hlt]
  · rw [← List.drop_eq_getElem_cons hlt, List.length_drop, State.len]

/-- On its turn, the sequencer is stopped by the decoder's fault at the byte under the cursor. -/
theorem step_stoppedBy_decode_error {s : State} {b0 : Byte} {k : FaultKind} (ht : s.turn)
    (hb : s.ibuf[s.cur]? = some b0) (hd : decode s.ibuf s.cur = .error k) :
    ∃ t, step s = .next t ∧ StoppedBy k s.popInput t := by
  obtain ⟨hin, -⟩ := List.getElem?_eq_some_iff.mp hb
  exact ⟨_, step_of_decode_error ht hin hd, s.popInput.raise_stoppedBy k⟩

/-- Settles O8: the decoder's answer by `decodeBytes_unknown_iff`, taken by `step_stoppedBy_decode_error`. -/
theorem unknownOpcodeExactlyForUnknownTags : Obligations.UnknownOpcodeExactlyForUnknownTags := by
  refine ⟨fun b0 rest => decodeBytes_unknown_iff.trans Opcode.ofTag_none,
    fun s b0 ht hb h94 h88 h9 h34 => ?_⟩
  obtain ⟨rest, hdec, -⟩ := decode_at_byte hb
  have hunknown := Opcode.ofTag_none.mpr ⟨h94, h88, h9, h34⟩
  exact step_stoppedBy_decode_error ht hb (hdec.trans (decodeBytes_of_unknown hunknown))

/-- Settles O9: the decoder's answer by `decodeBytes_truncated_iff`, row by row, taken by
`step_stoppedBy_decode_error`; at the end of the buffer nothing is decoded (`runStep_end`). -/
theorem truncatedStreamExactlyForShortTails : Obligations.TruncatedStreamExactlyForShortTails := by
  refine ⟨fun b0 rest => decodeBytes_truncated_iff.trans Opcode.exists_iff,
    fun s b0 ht hb hshort => ?_, fun s ⟨hrun, hidle⟩ hend => ?_⟩
  · obtain ⟨rest, hdec, hlen⟩ := decode_at_byte hb
    rw [← hlen] at hshort
    have htrunc := decodeBytes_truncated_iff.mpr (Opcode.exists_iff.mpr hshort)
    exact step_stoppedBy_decode_error ht hb (hdec.trans htrunc)
  · rw [step_idle_running hidle hrun]
    exact runStep_end (s := s.popInput) hend

end Sys2Proof.Machine

/-! ## The sequencer family (40_sequencer R91 to R100): an instruction's step, finish, fault entry, start -/

namespace Sys2Proof.Machine

/-! ### One step of an instruction (40_sequencer R96) -/

/-- Which addresses an instruction checks depends on the memory only. -/
theorem checkedAddresses_of_mem_eq {s t : State} (h : t.mem = s.mem) (i : Instr) :
    checkedAddresses t i = checkedAddresses s i := by
  cases i <;> simp [checkedAddresses, readAddresses, State.cell, h]

/-- With every checked address inside the capacity exec makes its one write. -/
theorem exec_inside {s : State} {i : Instr} (h : ∀ x ∈ checkedAddresses s i, x < s.cap) :
    exec i s = .next (s.setMem (s.mem.write (writeAddress i) (writtenValue s i))) := by
  rw [exec_eq, if_pos h]

/-- With a checked address outside the capacity exec faults. -/
theorem exec_outside {s : State} {i : Instr} (h : ∃ x ∈ checkedAddresses s i, s.cap ≤ x) :
    exec i s = .next (s.raise .memoryFault) := by
  obtain ⟨x, hx, hcap⟩ := h
  rw [exec_eq, if_neg fun hall => (hall x hx).not_ge hcap]

/-- Settles O23: the step is exec in the advanced state (`step_of_decode_ok`), whose memory, and so whose
checked addresses, are those of the state before. -/
theorem instructionAppliesFullyOrNotAtAll : Obligations.InstructionAppliesFullyOrNotAtAll := by
  intro s i n ht hd
  have haddr : checkedAddresses (s.popInput.advance n) i = checkedAddresses s i :=
    checkedAddresses_of_mem_eq (by simp) i
  rw [step_of_decode_ok ht hd, ← haddr]
  refine ⟨fun hin => ?_, fun hout => ?_⟩
  · exact ⟨_, _, exec_inside hin, fun x => State.cell_write _ _ x _, State.setMem_sameButMem _ _⟩
  · exact ⟨_, exec_outside hout, State.raise_stoppedBy _ _⟩

/-! ### Finish and result (40_sequencer R94) -/

/-- On its turn at the end of the buffer, the sequencer finishes the run. -/
theorem step_at_end {s : State} (ht : s.turn) (hend : s.cur = s.len) :
    step s = .next s.popInput.finish := by
  obtain ⟨hrun, hidle⟩ := ht
  rw [step_idle_running hidle hrun]
  exact runStep_end (s := s.popInput) hend

@[simp] theorem State.finish_cell (s : State) (x : Nat) : s.finish.cell x = s.cell x := by
  rw [State.cell, State.finish_mem, State.cell]

theorem State.finish_runState_of_valid {s : State} (h : s.rangeLo ≤ s.rangeHi ∧ s.rangeHi ≤ s.cap) :
    s.finish.runState = .halted := by rw [State.finish_valid s h]

theorem State.finish_fault_of_valid {s : State} (h : s.rangeLo ≤ s.rangeHi ∧ s.rangeHi ≤ s.cap) :
    s.finish.fault = s.fault := by rw [State.finish_valid s h]

/-- A finish with a valid range presents each address of the range, in rising order, with its cell. -/
theorem State.finish_result {s : State} (h : s.rangeLo ≤ s.rangeHi ∧ s.rangeHi ≤ s.cap) :
    ∃ l, s.finish.result = some l ∧ l.length = s.rangeHi - s.rangeLo ∧
      ∀ k, k < s.rangeHi - s.rangeLo → l[k]? = some (s.rangeLo + k, s.cell (s.rangeLo + k)) := by
  obtain ⟨hpresented, -⟩ := resultPresentedExactlyInHalted s.finish
  simpa using hpresented (State.finish_runState_of_valid h)

/-- A fault leaves no result. -/
theorem State.raise_result (s : State) (k : FaultKind) : (s.raise k).result = none :=
  State.result_of_not_halted (by simp)

/-- Settles O24: the step is a finish (`step_at_end`), which halts with the result of `State.finish_result`
or raises. -/
theorem finishPresentsRangeOrFaults : Obligations.FinishPresentsRangeOrFaults := by
  intro s ht hend hle
  rw [step_at_end ht hend]
  refine ⟨fun hin => ?_, fun hout => ?_⟩
  · have hvalid : s.popInput.rangeLo ≤ s.popInput.rangeHi ∧ s.popInput.rangeHi ≤ s.popInput.cap :=
      ⟨hle, hin⟩
    obtain ⟨l, hresult⟩ := State.finish_result hvalid
    exact ⟨_, l, rfl, State.finish_runState_of_valid hvalid, State.finish_fault_of_valid hvalid,
      State.finish_mem _, State.finish_cur _, hresult⟩
  · have hinvalid : ¬(s.popInput.rangeLo ≤ s.popInput.rangeHi ∧ s.popInput.rangeHi ≤ s.popInput.cap) :=
      fun hvalid => hvalid.2.not_gt hout
    rw [State.finish_invalid _ hinvalid]
    exact ⟨_, rfl, State.raise_stoppedBy _ _, State.raise_result _ _⟩

/-! ### Fault entry, and the end of a run (40_sequencer R95, R101) -/

/-- A finish that does not halt has raised a MemoryFault. -/
theorem State.finish_faulted {s : State} (h : s.finish.runState = .faulted) :
    s.finish = s.raise .memoryFault := by
  by_cases hvalid : s.rangeLo ≤ s.rangeHi ∧ s.rangeHi ≤ s.cap
  · rw [State.finish_runState_of_valid hvalid] at h; cases h
  · exact State.finish_invalid s hvalid

/-- A step of a run that ends in Faulted has raised a fault in the state as it stood, or a MemoryFault with the
cursor past the decoded instruction. -/
theorem runStep_faulted_cases {s t : State} (h : runStep s = .next t) (hrun : s.runState = .running)
    (hfault : t.runState = .faulted) :
    (∃ k, t = s.raise k) ∨
    (∃ i n, decode s.ibuf s.cur = .ok (i, n) ∧ t = (s.advance n).raise .memoryFault) := by
  obtain ⟨-, rfl⟩ | ⟨-, k, -, rfl⟩ | ⟨i, n, hd, hexec⟩ := runStep_cases h
  · exact .inl ⟨_, State.finish_faulted hfault⟩
  · exact .inl ⟨k, rfl⟩
  · obtain ⟨rfl, -⟩ | ⟨rfl, -⟩ := exec_cases hexec
    · simp [hrun] at hfault
    · exact .inr ⟨i, n, hd, rfl⟩

/-- After the end of a run nothing changes short of a reset (R97). -/
theorem step_terminal {s : State} (ht : s.terminal) (hreset : s.input ≠ .reset) :
    step s = .next s.popInput := by
  have hrun : s.runState ≠ .running := by obtain h | h := ht <;> simp [h]
  have hready : s.runState ≠ .ready := by obtain h | h := ht <;> simp [h]
  cases hin : s.input with
  | idle => exact step_idle_stopped hin hrun
  | reset => exact absurd hin hreset
  | start buf lo hi => rw [step_start hin, State.start_ignored s.popInput hready]

/-- Settles O28: `runStep_faulted_cases` for the step into Faulted, `step_terminal` for those after it. -/
theorem faultTransitionChangesNothingElse : Obligations.FaultTransitionChangesNothingElse := by
  refine ⟨fun s t ⟨hrun, hidle⟩ h hfault => ?_, fun s hs => step_terminal (.inr hs)⟩
  rw [step_idle_running hidle hrun] at h
  obtain ⟨k, rfl⟩ | ⟨i, n, hd, rfl⟩ := runStep_faulted_cases h hrun hfault
  · exact ⟨⟨k, rfl⟩, rfl, rfl, rfl, rfl, rfl, rfl, State.raise_result _ _, .inl rfl⟩
  · exact ⟨⟨_, rfl⟩, rfl, rfl, rfl, rfl, rfl, rfl, State.raise_result _ _, .inr ⟨i, n, hd, rfl, rfl⟩⟩

/-! ### Start (40_sequencer R91, R100) -/

/-- A start accepted in Ready leaves nothing of the state before but the capacity and the requests to come. -/
theorem State.start_congr {s s' : State} (h : s.runState = .ready) (h' : s'.runState = .ready)
    (hcap : s'.cap = s.cap) (hinputs : s'.inputs = s.inputs) (buf : List Byte) (lo hi : Nat) :
    s'.start buf lo hi = s.start buf lo hi := by
  simp [State.start, h, h', hcap, hinputs]

/-- Settles O29, field by field of the accepted start. -/
theorem startBeginsTheRun : Obligations.StartBeginsTheRun := by
  intro s buf lo hi hready hstart
  have hr : s.popInput.runState = .ready := hready
  exact ⟨_, step_start hstart, State.cell_of_mem_nil (State.start_mem _ hr buf lo hi),
    State.start_cur _ hr buf lo hi, State.start_rangeLo _ hr buf lo hi,
    State.start_rangeHi _ hr buf lo hi, State.start_fault _ hr buf lo hi,
    State.start_runState _ hr buf lo hi, State.start_ibuf _ hr buf lo hi,
    congrArg List.length (State.start_ibuf _ hr buf lo hi), State.start_cap _ hr buf lo hi,
    State.start_inputs _ hr buf lo hi⟩

/-- Settles O39: both runs take the same first step, the start, into one state (`State.start_congr`). -/
theorem runDependsOnItsArgumentsOnly : Obligations.RunDependsOnItsArgumentsOnly := by
  intro s s' buf lo hi k hready hready' hcap hinputs hstart
  have hstart' : s'.input = .start buf lo hi := by rw [State.input, hinputs]; exact hstart
  have hsame : s'.popInput.start buf lo hi = s.popInput.start buf lo hi :=
    State.start_congr (s := s.popInput) (s' := s'.popInput) hready hready' hcap (congrArg List.tail hinputs)
      buf lo hi
  rw [run_of_step (step_start hstart'), run_of_step (step_start hstart), hsame]

end Sys2Proof.Machine

/-! ## The data movement family (41_data_movement R110 to R112): LOAD_CONST, WRITE_MEM, READ_MEM -/

namespace Sys2Proof.Machine

/-! ### An instruction's effect by its checked addresses (20_memory R46, R48) -/

/-- With every checked address inside the capacity, the instruction's value replaces the cell it writes and nothing
else changes. -/
theorem exec_replaces_cell {s : State} {i : Instr} (h : ∀ x ∈ checkedAddresses s i, x < s.cap) :
    ∃ t, exec i s = .next t ∧ CellReplaced s t (writeAddress i) (writtenValue s i) ∧ SameButMem s t :=
  ⟨_, exec_inside h, fun x => s.cell_write _ x _, s.setMem_sameButMem _⟩

/-- With a checked address outside the capacity, the instruction is stopped with nothing of it applied. -/
theorem exec_stoppedBy {s : State} {i : Instr} (h : ∃ x ∈ checkedAddresses s i, s.cap ≤ x) :
    ∃ t, exec i s = .next t ∧ StoppedBy .memoryFault s t :=
  ⟨_, exec_outside h, s.raise_stoppedBy _⟩

/-! ### The rows of the access table (20_memory R46) -/

@[simp] theorem checkedAddresses_loadConst (s : State) (a : Tag) (b : Addr) (c : Imm) :
    checkedAddresses s (.loadConst a b c) = [absolute b] := rfl

@[simp] theorem checkedAddresses_writeMem (s : State) (a : Tag) (b c : Addr) :
    checkedAddresses s (.writeMem a b c) = [absolute b, absolute c] := rfl

@[simp] theorem checkedAddresses_readMem (s : State) (a : Tag) (b c : Addr) (d : Off) :
    checkedAddresses s (.readMem a b c d) =
      [absolute b, absolute c, (s.cell (absolute c)).toNat + d.toNat] := rfl

/-! ### The three instructions (41_data_movement R110 to R112) -/

/-- Settles O13: the row of READ_MEM checks B, C and the exact pointer sum, and `exec_replaces_cell` writes the value
read at that sum in the state before. -/
theorem readMemCopiesThroughPointer : Obligations.ReadMemCopiesThroughPointer := by
  refine fun s a b c d => ⟨fun hb hc hp => ?_, fun hout => ?_⟩
  · exact exec_replaces_cell (i := .readMem a b c d) (by simp [hb, hc, hp])
  · exact exec_stoppedBy (by simpa using hout)

/-- Settles O12: the row of WRITE_MEM checks B and C, and `exec_replaces_cell` writes the old cell C. -/
theorem writeMemCopiesCell : Obligations.WriteMemCopiesCell := by
  refine fun s a b c => ⟨fun hb hc => ?_, fun hout => ?_⟩
  · exact exec_replaces_cell (i := .writeMem a b c) (by simp [hb, hc])
  · exact exec_stoppedBy (by simpa using hout)

/-- Settles O11: the row of LOAD_CONST checks B alone, and `exec_replaces_cell` writes the immediate. -/
theorem loadConstStoresImmediate : Obligations.LoadConstStoresImmediate := by
  refine fun s a b c => ⟨fun hb => ?_, fun hout => ?_⟩
  · exact exec_replaces_cell (i := .loadConst a b c) (by simpa using hb)
  · exact exec_stoppedBy (by simpa using hout)

end Sys2Proof.Machine

/-! ## The arithmetic family (42_arithmetic R120, R121): the integer square root and UNARY_SQRT -/

namespace Sys2Proof.Machine

/-! ### The integer square root (42_arithmetic R120) -/

/-- The invariant of the digit-by-digit method: while `r` is the root's bits above the `k` still to be tried, so that
the root lies in `[r, r + 2^k)`, the digits left complete it to the floor square root. -/
theorem isqrtDigits_eq_sqrt {v k r : Nat} (hle : r * r ≤ v) (hlt : v < (r + 2 ^ k) * (r + 2 ^ k)) :
    isqrtDigits v k r = Nat.sqrt v := by
  induction k generalizing r with
  | zero => exact Nat.eq_sqrt.2 ⟨hle, hlt⟩
  | succ k ih =>
    have hhalf : r + 2 ^ (k + 1) = r + 2 ^ k + 2 ^ k := by ring
    rw [isqrtDigits]
    split
    · next hbit => exact ih hbit (hhalf ▸ hlt)
    · next hbit => exact ih hle (not_le.1 hbit)

/-- One digit for every two bits is enough: `2^(log2 n / 2 + 1)` is above the root. -/
theorem lt_sq_two_pow_half_log2 (n : Nat) :
    n < 2 ^ (Nat.log2 n / 2 + 1) * 2 ^ (Nat.log2 n / 2 + 1) := by
  calc n < 2 ^ (Nat.log2 n + 1) := Nat.lt_log2_self
    _ ≤ 2 ^ ((Nat.log2 n / 2 + 1) + (Nat.log2 n / 2 + 1)) :=
      Nat.pow_le_pow_right two_pos (by omega)
    _ = _ := pow_add ..

/-- The model's root is the library's floor square root. -/
theorem isqrt_eq_sqrt (n : Nat) : isqrt n = Nat.sqrt n :=
  isqrtDigits_eq_sqrt (Nat.zero_le n) (by simpa using lt_sq_two_pow_half_log2 n)

/-- `isqrt n` is the one number with the two inequalities of the floor square root. -/
theorem eq_isqrt_iff {n r : Nat} : r = isqrt n ↔ r * r ≤ n ∧ n < (r + 1) * (r + 1) := by
  rw [isqrt_eq_sqrt, Nat.eq_sqrt]

theorem isqrt_le_isqrt {m n : Nat} (h : m ≤ n) : isqrt m ≤ isqrt n := by
  simpa only [isqrt_eq_sqrt] using Nat.sqrt_le_sqrt h

/-- The root of a number of 16 bits has 8. -/
theorem isqrt_le_255 {n : Nat} (h : n ≤ 65535) : isqrt n ≤ 255 := by
  have hlt : Nat.sqrt n < 256 := Nat.sqrt_lt.2 (by omega)
  rw [isqrt_eq_sqrt]
  omega

/-- Settles O18: the two inequalities pin the root (`eq_isqrt_iff`), the bounds and monotonicity are those of the
library's root (`isqrt_eq_sqrt`), and the corner values are the model's own evaluation. -/
theorem isqrtIsFloorSquareRoot : Obligations.IsqrtIsFloorSquareRoot := by
  refine ⟨fun n => ?_, by decide, by decide⟩
  obtain ⟨hle, hlt⟩ := eq_isqrt_iff.1 (Eq.refl (isqrt n))
  have hself : isqrt n ≤ n := isqrt_eq_sqrt n ▸ Nat.sqrt_le_self n
  have hbelow : 2 ≤ n → isqrt n < n := fun h => isqrt_eq_sqrt n ▸ Nat.sqrt_lt_self h
  exact ⟨hle, hlt, fun r hr hr' => eq_isqrt_iff.2 ⟨hr, hr'⟩, hself, hbelow,
    fun m hm => isqrt_le_isqrt hm, isqrt_le_255⟩

/-! ### UNARY_SQRT (42_arithmetic R121) -/

@[simp] theorem checkedAddresses_unarySqrt (s : State) (a : Tag) (b c : Addr) (d : Off) :
    checkedAddresses s (.unarySqrt a b c d) = [basePlusOffset c d, absolute b] := rfl

/-- Settles O14: the row of UNARY_SQRT checks B and the exact sum `C + D`, and `exec_replaces_cell` writes there the
cell of `isqrt`, which `eq_isqrt_iff` says is the floor root of the old cell B. -/
theorem unarySqrtStoresFloorRoot : Obligations.UnarySqrtStoresFloorRoot := by
  refine fun s a b c d => ⟨fun hb hsum => ?_, fun hout => ?_⟩
  · obtain ⟨t, hexec, hcell, hframe⟩ :=
      exec_replaces_cell (s := s) (i := .unarySqrt a b c d) (by simp [hb, hsum])
    obtain ⟨hle, hlt⟩ := eq_isqrt_iff.1 (Eq.refl (isqrt (s.cell (absolute b)).toNat))
    exact ⟨t, _, hexec, hle, hlt, isqrt_le_255 (Nat.le_of_lt_succ (BitVec.isLt _)), hcell, hframe⟩
  · exact exec_stoppedBy (by simpa using hout.symm)

end Sys2Proof.Machine

/-! ## The machine as a whole (10_state R21 to R34; 20_memory R51; 40_sequencer R93, R94): the invariant -/

namespace Sys2Proof.Machine

/-! ### The invariant, update by update -/

section Invariant

variable {s : State}

/-- The invariant does not speak of the host's requests. -/
theorem State.Inv.popInput (h : s.Inv) : s.popInput.Inv := by
  obtain ⟨hcap, hwf, hrange, hcur, hfault, hdone, hfresh⟩ := h
  exact ⟨hcap, hwf, hrange, hcur, hfault, hdone, hfresh⟩

/-- A state in Ready without a fault, where nothing is listed and the cursor is 0, meets the invariant. -/
theorem State.Inv.of_ready (hcap : 1 ≤ s.cap) (hrun : s.runState = .ready) (hfault : s.fault = none)
    (hmem : s.mem = []) (hcur : s.cur = 0) : s.Inv where
  cap_pos := hcap
  mem_wf := hmem ▸ Memory.wf_nil
  mem_inRange := by simp [hmem]
  cur_le := hcur ▸ Nat.zero_le _
  fault_iff := by simp [hrun, hfault]
  halted_done := by simp [hrun]
  ready_fresh := fun _ => ⟨hmem, hcur⟩

/-- The reset column meets the invariant whatever stood before. -/
theorem State.Inv.resetCore (h : s.Inv) : s.resetCore.Inv :=
  .of_ready h.cap_pos rfl rfl rfl rfl

/-- A running state without a fault meets the invariant as far as its capacity, memory and cursor do. -/
theorem State.Inv.of_running (hrun : s.runState = .running) (hfault : s.fault = none) (hcap : 1 ≤ s.cap)
    (hwf : s.mem.wf) (hrange : s.memInRange) (hcur : s.cur ≤ s.len) : s.Inv where
  cap_pos := hcap
  mem_wf := hwf
  mem_inRange := hrange
  cur_le := hcur
  fault_iff := by simp [hrun, hfault]
  halted_done := by simp [hrun]
  ready_fresh := by simp [hrun]

/-- Outside Faulted there is no fault. -/
theorem State.Inv.fault_none (h : s.Inv) (hrun : s.runState ≠ .faulted) : s.fault = none := by
  simpa using h.fault_iff.not.2 hrun

/-- A start is ignored outside Ready, and in Ready it empties the memory. -/
theorem State.Inv.start (h : s.Inv) (buf : List Byte) (lo hi : Nat) : (s.start buf lo hi).Inv := by
  by_cases hr : s.runState = .ready
  · have hmem := s.start_mem hr buf lo hi
    have hcur := s.start_cur hr buf lo hi
    exact .of_running (s.start_runState hr buf lo hi) (s.start_fault hr buf lo hi)
      (s.start_cap hr buf lo hi ▸ h.cap_pos) (hmem ▸ Memory.wf_nil) (by simp [hmem])
      (hcur ▸ Nat.zero_le _)
  · rwa [s.start_ignored hr]

/-- Taking a fault sets FAULT and RUNSTATE together. -/
theorem State.Inv.raise (h : s.Inv) (k : FaultKind) : (s.raise k).Inv where
  cap_pos := h.cap_pos
  mem_wf := h.mem_wf
  mem_inRange := h.mem_inRange
  cur_le := h.cur_le
  fault_iff := by simp
  halted_done := by simp
  ready_fresh := by simp

/-- A finish at the end of the buffer halts with a valid range or raises. -/
theorem State.Inv.finish (h : s.Inv) (hrun : s.runState = .running) (hend : s.cur = s.len) :
    s.finish.Inv := by
  by_cases hvalid : s.rangeLo ≤ s.rangeHi ∧ s.rangeHi ≤ s.cap
  · have hfault : s.fault = none := h.fault_none (by simp [hrun])
    rw [State.finish_valid s hvalid]
    exact ⟨h.cap_pos, h.mem_wf, h.mem_inRange, h.cur_le, by simp [hfault], fun _ => ⟨hend, hvalid⟩,
      by simp⟩
  · rw [State.finish_invalid s hvalid]
    exact h.raise .memoryFault

/-- A running cursor may move anywhere inside the buffer. -/
theorem State.Inv.advance (h : s.Inv) (hrun : s.runState = .running) {n : Nat}
    (hle : s.cur + n ≤ s.len) : (s.advance n).Inv :=
  .of_running hrun (h.fault_none (by simp [hrun])) h.cap_pos h.mem_wf h.mem_inRange hle

/-- A running store inside the capacity keeps the memory canonical (`Memory.wf_write`) and inside it. -/
theorem State.Inv.write (h : s.Inv) (hrun : s.runState = .running) {a : Nat} (ha : a < s.cap)
    (v : Cell) : (s.setMem (s.mem.write a v)).Inv := by
  refine .of_running hrun (h.fault_none (by simp [hrun])) h.cap_pos (Memory.wf_write h.mem_wf a v)
    (fun p hp => ?_) h.cur_le
  obtain hpa | hp := Memory.address_of_mem_write hp
  · exact hpa ▸ ha
  · exact h.mem_inRange p hp

end Invariant

/-! ### The invariant, step by step -/

/-- An instruction stores at a checked address or faults. -/
theorem exec_keeps_inv {i : Instr} {s t : State} (h : s.Inv) (hrun : s.runState = .running)
    (hexec : exec i s = .next t) : t.Inv := by
  obtain ⟨rfl, hin⟩ | ⟨rfl, -⟩ := exec_cases hexec
  · exact h.write hrun (hin _ List.mem_cons_self) _
  · exact h.raise .memoryFault

/-- The sequencer's step keeps the invariant; what it decodes ends inside the buffer (`decode_inside`). -/
theorem runStep_keeps_inv {s t : State} (h : s.Inv) (hrun : s.runState = .running)
    (hstep : runStep s = .next t) : t.Inv := by
  obtain ⟨hend, rfl⟩ | ⟨-, k, -, rfl⟩ | ⟨i, n, hd, hexec⟩ := runStep_cases hstep
  · exact h.finish hrun hend
  · exact h.raise k
  · exact exec_keeps_inv (h.advance hrun (decode_inside hd).2) hrun hexec

/-- Settles O36: the host's requests by `State.Inv.resetCore` and `State.Inv.start`, the sequencer's own step by
`runStep_keeps_inv`. -/
theorem stepKeepsTheInvariant : Obligations.StepKeepsTheInvariant := by
  intro s t h hstep
  obtain ⟨-, rfl⟩ | ⟨buf, lo, hi, -, rfl⟩ | ⟨-, -, rfl⟩ | ⟨-, hrun, hrunStep⟩ := step_cases hstep
  · exact h.popInput.resetCore
  · exact h.popInput.start buf lo hi
  · exact h.popInput
  · exact runStep_keeps_inv h.popInput hrun hrunStep

/-- Settles O35: the state right after reset is a fresh one in Ready. -/
theorem resetMeetsTheInvariant : Obligations.ResetMeetsTheInvariant :=
  .of_ready (by decide) rfl rfl rfl rfl

end Sys2Proof.Machine

/-! ## The codec, continued (30_encoding R62 to R74): the converse of the round trip, bit 7, the field places -/

namespace Sys2Proof

/-! ### Byte 0 (30_encoding R62, R63) -/

/-- The tag drops bit 7 of byte 0, whatever it is set to. -/
theorem tagOf_bit_seven (b0 : Byte) : tagOf (b0 ||| 0x80) = tagOf (b0 &&& 0x7F) := by
  decide +revert

/-- Byte 0 as the encoder writes it is byte 0 as decoded with bit 7 cleared. -/
theorem tagByte_of_tagOf {b0 : Byte} {o : Opcode} (h : tagOf b0 = o.tag) : tagByte o = b0 &&& 0x7F := by
  have hclear : ∀ b : Byte, (tagOf b).setWidth 8 = b &&& 0x7F := by decide
  rw [tagByte, ← h, hclear]

/-- Clearing bit 7 changes nothing exactly when it is 0. -/
theorem and_127_eq_self_iff (b0 : Byte) : b0 &&& 0x7F = b0 ↔ b0.getLsbD 7 = false := by
  decide +revert

/-- No operand field reads byte 0. -/
theorem extractFields_byte0 (o : Opcode) (a : Tag) (b0 b0' : Byte) (rest : List Byte) :
    extractFields o a (b0 :: rest) = extractFields o a (b0' :: rest) := by
  cases o <;> rfl

/-- Of byte 0 the decoder reads the tag only. -/
theorem decodeBytes_congr_tag {b0 b0' : Byte} (h : tagOf b0 = tagOf b0') (rest : List Byte) :
    decodeBytes (b0 :: rest) = decodeBytes (b0' :: rest) := by
  simp only [decodeBytes_cons, h, extractFields_byte0 _ _ b0 b0']

/-- Settles O4: the two first bytes have one tag. -/
theorem decodeIgnoresBitSeven : Obligations.DecodeIgnoresBitSeven :=
  fun b0 rest => decodeBytes_congr_tag (tagOf_bit_seven b0) rest

/-! ### Little-endian fields as bit vectors (30_encoding R64 to R67) -/

/-- A bit vector of as many bits as a byte sequence holds the sequence's value in full. -/
theorem toNat_ofNat_leValue {w : Nat} {bs : List Byte} (hw : 256 ^ bs.length = 2 ^ w) :
    (BitVec.ofNat w (leValue bs)).toNat = leValue bs := by
  rw [BitVec.toNat_ofNat, Nat.mod_eq_of_lt (hw ▸ leValue_lt bs)]

/-- A 32-bit field of four bytes. -/
theorem toNat_ofNat_leValue_four (x y z u : Byte) :
    (BitVec.ofNat 32 (leValue [x, y, z, u])).toNat =
      x.toNat + y.toNat * 256 + z.toNat * 256 ^ 2 + u.toNat * 256 ^ 3 := by
  rw [toNat_ofNat_leValue (by norm_num)]
  simp only [leValue]
  ring

/-- A 16-bit field of two bytes. -/
theorem toNat_ofNat_leValue_two (x y : Byte) :
    (BitVec.ofNat 16 (leValue [x, y])).toNat = x.toNat + y.toNat * 256 := by
  rw [toNat_ofNat_leValue (by norm_num)]
  simp only [leValue]
  ring

/-- Settles O6: with the operation's tag and length the decoder extracts the fields (`decodeBytes_of_full`), whose
places are read off the bytes, and their values are `toNat_ofNat_leValue_four` and `toNat_ofNat_leValue_two`. -/
theorem operandFieldPlaces : Obligations.OperandFieldPlaces := by
  intro b0 b1 b2 b3 b4 b5 b6 b7 b8 b9 b10 rest
  refine ⟨fun ht => ?_, fun ht => ?_, fun ht => ?_, fun ht => ?_⟩
  · exact ⟨_, _, decodeBytes_of_full (o := .loadConst) ht (Nat.le_add_left 7 rest.length),
      toNat_ofNat_leValue_four .., toNat_ofNat_leValue_two ..⟩
  · exact ⟨_, _, decodeBytes_of_full (o := .writeMem) ht (Nat.le_add_left 9 rest.length),
      toNat_ofNat_leValue_four .., toNat_ofNat_leValue_four ..⟩
  · exact ⟨_, _, _, decodeBytes_of_full (o := .readMem) ht (Nat.le_add_left 11 rest.length),
      toNat_ofNat_leValue_four .., toNat_ofNat_leValue_four .., toNat_ofNat_leValue_two ..⟩
  · exact ⟨_, _, _, decodeBytes_of_full (o := .unarySqrt) ht (Nat.le_add_left 11 rest.length),
      toNat_ofNat_leValue_four .., toNat_ofNat_leValue_four .., toNat_ofNat_leValue_two ..⟩

/-! ### Encoding what was decoded (30_encoding R74, the converse) -/

/-- A field that lies in the bytes is written out again as the bytes it was read from. -/
theorem leBytes_ofNat_value {w : Nat} {p : FieldPlace} {bs : List Byte} (hw : 256 ^ p.bytes = 2 ^ w)
    (hin : p.offset + p.bytes ≤ bs.length) :
    leBytes p.bytes (BitVec.ofNat w (p.value bs)).toNat = (bs.drop p.offset).take p.bytes := by
  have hlen : ((bs.drop p.offset).take p.bytes).length = p.bytes := by
    rw [List.length_take, List.length_drop]; omega
  calc leBytes p.bytes (BitVec.ofNat w (p.value bs)).toNat
    _ = leBytes ((bs.drop p.offset).take p.bytes).length (leValue ((bs.drop p.offset).take p.bytes)) := by
      rw [FieldPlace.value, toNat_ofNat_leValue (by rw [hlen, hw]), hlen]
    _ = _ := leBytes_leValue _

/-- The fields of an operation lie one after the other from byte 1 to its length, so that the encoding of the extracted
fields is the tag byte and the bytes they were extracted from. -/
theorem encode_extractFields {o : Opcode} {b0 : Byte} {rest : List Byte}
    (hlen : o.length ≤ (b0 :: rest).length) :
    encode (extractFields o o.tag (b0 :: rest)) = tagByte o :: rest.take (o.length - 1) := by
  have hlen7 : 7 ≤ (b0 :: rest).length := o.format.length_pos.trans hlen
  have hB : leBytes 4 (BitVec.ofNat 32 (placeB.value (b0 :: rest))).toNat = rest.take 4 :=
    leBytes_ofNat_value (p := placeB) (by decide) (le_trans (by decide) hlen7)
  have hC2 : leBytes 2 (BitVec.ofNat 16 ((placeC .lc).value (b0 :: rest))).toNat = (rest.drop 4).take 2 :=
    leBytes_ofNat_value (p := placeC .lc) (by decide) hlen7
  have hC4 (h : 9 ≤ o.length) :
      leBytes 4 (BitVec.ofNat 32 ((placeC .wm).value (b0 :: rest))).toNat = (rest.drop 4).take 4 :=
    leBytes_ofNat_value (p := placeC .wm) (by decide) (h.trans hlen)
  have hD (h : 11 ≤ o.length) :
      leBytes 2 (BitVec.ofNat 16 (placeD.value (b0 :: rest))).toNat = (rest.drop 8).take 2 :=
    leBytes_ofNat_value (p := placeD) (by decide) (h.trans hlen)
  have hBC (n : Nat) : rest.take 4 ++ (rest.drop 4).take n = rest.take (4 + n) := List.take_add.symm
  have hBCD : (rest.take 4 ++ (rest.drop 4).take 4) ++ (rest.drop 8).take 2 = rest.take 10 := by
    rw [hBC, ← List.take_add]
  have hRS (h : 11 ≤ o.length) :=
    (congrArg₂ (· ++ ·) (congrArg₂ (· ++ ·) hB (hC4 (le_trans (by decide) h))) (hD h)).trans hBCD
  cases o with
  | loadConst => exact congrArg (tagByte _ :: ·) ((congrArg₂ (· ++ ·) hB hC2).trans (hBC 2))
  | writeMem => exact congrArg (tagByte _ :: ·) ((congrArg₂ (· ++ ·) hB (hC4 le_rfl)).trans (hBC 4))
  | readMem => exact congrArg (tagByte _ :: ·) (hRS le_rfl)
  | unarySqrt => exact congrArg (tagByte _ :: ·) (hRS le_rfl)

/-- Settles O3: the decoded fields are encoded as the bytes they came from (`encode_extractFields`) after the tag byte,
which is byte 0 with bit 7 cleared (`tagByte_of_tagOf`). -/
theorem encodeOfDecodeClearsBitSeven : Obligations.EncodeOfDecodeClearsBitSeven := by
  intro b0 rest i n h
  obtain ⟨_, _, hcons, ho, rfl, hle, hi⟩ := decodeBytes_ok h
  obtain ⟨rfl, rfl⟩ := List.cons.inj hcons
  have hencode : encode i = (b0 &&& 0x7F) :: rest.take (i.length - 1) := by
    rw [hi, encode_extractFields hle, tagByte_of_tagOf (Opcode.tag_of_ofTag ho), ← hi]
    rfl
  obtain ⟨m, hm⟩ : ∃ m, i.length = m + 1 := Nat.exists_eq_add_of_le' (by have := i.length_pos; omega)
  refine ⟨hencode, ?_⟩
  rw [hencode, hm, List.take_succ_cons, Nat.add_sub_cancel, List.cons_eq_cons, and_127_eq_self_iff]
  exact and_iff_left rfl

/-! ### What the decoder accepts (30_encoding R69; 41_data_movement R113 a) -/

/-- An instruction extracted with its operation's tag is well formed. -/
theorem extractFields_wellFormed (o : Opcode) (bs : List Byte) :
    (extractFields o o.tag bs).wellFormed = true := by
  cases o <;> rfl

/-- Settles O7: `extractFields_wellFormed` for operand A, `decode_inside` for the length and the end. -/
theorem decodedInstructionIsWellFormed : Obligations.DecodedInstructionIsWellFormed := by
  intro ibuf c i n h
  obtain ⟨hn, hle⟩ := Machine.decode_inside h
  obtain ⟨b0, rest, -, -, -, -, hi⟩ := decodeBytes_ok h
  exact ⟨hi ▸ extractFields_wellFormed i.opcode _, hn, hn ▸ i.length_cases, hle⟩

/-- Settles O1: the four words are the model's own evaluation. -/
theorem writtenOutWordsDecode : Obligations.WrittenOutWordsDecode :=
  ⟨rfl, rfl, rfl, rfl⟩

end Sys2Proof

/-! ## What all instructions share (20_memory R46 to R48; 41_data_movement R113; 42_arithmetic R122, R123) -/

namespace Sys2Proof.Machine

/-! ### The frame of an instruction -/

/-- Settles O15: an instruction with every checked address inside the capacity replaces its one cell
(`exec_replaces_cell`), any other is stopped (`exec_stoppedBy`). -/
theorem execWritesItsOneCellOrFaults : Obligations.ExecWritesItsOneCellOrFaults := by
  refine fun i s => ⟨fun hin => ?_, exec_stoppedBy⟩
  obtain ⟨t, hexec, hcell, hframe⟩ := exec_replaces_cell hin
  exact ⟨t, _, hexec, hcell, hframe⟩

/-- The value an instruction writes depends on the memory only. -/
theorem writtenValue_of_mem_eq {s t : State} (h : t.mem = s.mem) (i : Instr) :
    writtenValue t i = writtenValue s i := by
  cases i <;> simp [writtenValue, State.cell, h]

/-- Settles O16: the checked addresses (`checkedAddresses_of_mem_eq`) and the written value (`writtenValue_of_mem_eq`)
are those of the memory, so both states take the same of exec's two cases. -/
theorem execDependsOnMemoryAndCapacityOnly : Obligations.ExecDependsOnMemoryAndCapacityOnly := by
  intro i s s' hcap hmem
  have haddr := checkedAddresses_of_mem_eq hmem i
  by_cases hin : ∀ x ∈ checkedAddresses s i, x < s.cap
  · have hin' : ∀ x ∈ checkedAddresses s' i, x < s'.cap := by rwa [haddr, hcap]
    refine ⟨_, _, exec_inside hin, exec_inside hin', ?_,
      .inl ⟨s.setMem_sameButMem _, s'.setMem_sameButMem _⟩⟩
    simp only [State.setMem_mem, hmem, writtenValue_of_mem_eq hmem]
  · have hout : ∃ x ∈ checkedAddresses s i, s.cap ≤ x := by simpa using hin
    have hout' : ∃ x ∈ checkedAddresses s' i, s'.cap ≤ x := by rwa [haddr, hcap]
    exact ⟨_, _, exec_outside hout, exec_outside hout', hmem,
      .inr ⟨s.raise_stoppedBy _, s'.raise_stoppedBy _⟩⟩

/-- Settles O17: no meaning reads its first argument. -/
theorem operandATakesNoPartInExecution : Obligations.OperandATakesNoPartInExecution :=
  fun _ _ _ _ _ _ => ⟨rfl, rfl, rfl, rfl⟩

/-! ### The ALU's circuits -/

/-- Settles O19: eight digits are enough for 16 bits (`isqrtDigits_eq_sqrt` with `v < 256 * 256`), and the root, at most
255, fits its cell. -/
theorem digitCircuitComputesIsqrt : Obligations.DigitCircuitComputesIsqrt := by
  intro v
  have hv : v.toNat < 65536 := v.isLt
  have hroot : isqrt v.toNat ≤ 255 := isqrt_le_255 (by omega)
  constructor
  · rw [isqrt_eq_sqrt]
    exact isqrtDigits_eq_sqrt (Nat.zero_le _) hv
  · rw [sqrtCell, BitVec.toNat_ofNat, Nat.mod_eq_of_lt (by omega)]

/-- Settles O20: each adder has one bit more than its wider operand, so its sum does not wrap. -/
theorem addressAddersAreExact : Obligations.AddressAddersAreExact := by
  intro c p d
  have hc : c.toNat < 2 ^ 32 := c.isLt
  have hp : p.toNat < 2 ^ 16 := p.isLt
  have hd : d.toNat < 2 ^ 16 := d.isLt
  constructor
  · rw [adder33, basePlusOffset, BitVec.toNat_add, BitVec.toNat_setWidth, BitVec.toNat_setWidth]
    omega
  · rw [adder17, pointerPlusOffset, BitVec.toNat_add, BitVec.toNat_setWidth, BitVec.toNat_setWidth]
    omega

end Sys2Proof.Machine

/-! ## The sequencer, continued (40_sequencer R92 to R99; 60_exceptions R137): its turn, edges, priority, progress -/

namespace Sys2Proof.Machine

/-! ### The sequencer's turn (40_sequencer R92, R94) -/

/-- Settles O21, by the decoder's answer. -/
theorem stepRunsDecodedInstruction : Obligations.StepRunsDecodedInstruction :=
  fun _ ht => ⟨step_at_end ht, fun _ hin hd => step_of_decode_error ht hin hd,
    fun _ _ hd => step_of_decode_ok ht hd⟩

/-- Settles O25: an inverted range is not valid, so the finish raises. -/
theorem invertedRangeFaults : Obligations.InvertedRangeFaults := by
  intro s ht hend hlt
  have hinvalid : ¬(s.rangeLo ≤ s.rangeHi ∧ s.rangeHi ≤ s.cap) := fun h => h.1.not_gt hlt
  rw [step_at_end ht hend, State.finish_invalid s.popInput hinvalid]
  exact ⟨_, rfl, State.raise_stoppedBy _ _, State.raise_result _ _⟩

/-! ### The order of the fault tests (60_exceptions R137) -/

/-- FAULT after a finish: the range is what can fault. -/
theorem State.finish_fault (s : State) :
    s.finish.fault = if s.rangeLo ≤ s.rangeHi ∧ s.rangeHi ≤ s.cap then s.fault else some .memoryFault := by
  split
  · next hvalid => exact State.finish_fault_of_valid hvalid
  · next hinvalid => rw [State.finish_invalid s hinvalid, State.raise_fault]

/-- FAULT after an instruction: the checked addresses are what can fault. -/
theorem exec_fault (i : Instr) (s : State) :
    ∃ t, exec i s = .next t ∧
      t.fault = if ∀ x ∈ checkedAddresses s i, x < s.cap then s.fault else some .memoryFault := by
  rw [exec_eq]
  split
  · exact ⟨_, rfl, s.setMem_fault _⟩
  · exact ⟨_, rfl, s.raise_fault _⟩

/-- Settles O27: at the end `State.finish_fault`; before it the decoder's three answers in their order, and after a
decode `exec_fault`, the advanced state checking the same addresses. -/
theorem faultPriorityWithinAStep : Obligations.FaultPriorityWithinAStep := by
  intro s ht hle
  split
  · next hend => exact ⟨_, step_at_end ht hend, s.popInput.finish_fault⟩
  next hne =>
  have hin : s.cur < s.len := lt_of_le_of_ne hle hne
  obtain ⟨b0, hb⟩ : ∃ b0, s.ibuf[s.cur]? = some b0 := ⟨_, List.getElem?_eq_getElem hin⟩
  obtain ⟨rest, hdec, hlen⟩ := decode_at_byte hb
  refine ⟨b0, ?_⟩
  cases ho : Opcode.ofTag (tagOf b0) with
  | none => exact ⟨_, hb, step_of_decode_error ht hin (hdec.trans (decodeBytes_of_unknown ho)), rfl⟩
  | some o =>
    have htag := Opcode.tag_of_ofTag ho
    simp only [← hlen]
    split
    · next hshort =>
      exact ⟨_, hb, step_of_decode_error ht hin (hdec.trans (decodeBytes_of_short htag hshort)), rfl⟩
    · next hfull =>
      have hd := hdec.trans (decodeBytes_of_full htag (not_lt.1 hfull))
      obtain ⟨t, hexec, hfault⟩ := exec_fault (extractFields o o.tag (b0 :: rest)) (s.popInput.advance o.length)
      rw [checkedAddresses_of_mem_eq (s := s) (t := s.popInput.advance o.length) rfl] at hfault
      exact ⟨t, hb, (step_of_decode_ok ht hd).trans hexec, _, hd, hfault⟩

/-! ### The run state machine (40_sequencer R97) -/

/-- Settles O32: an ended run by `step_terminal`, a start outside Ready by `State.start_ignored`. -/
theorem eventsWithoutAnEdgeChangeNothing : Obligations.EventsWithoutAnEdgeChangeNothing := by
  refine fun s => ⟨step_terminal, fun hrun buf lo hi hin => ?_, fun hready hin => ?_⟩
  · rw [step_start hin, State.start_ignored s.popInput (by simp [hrun])]
  · exact step_idle_stopped hin (by simp [hready])

/-- Settles O30, field by field of the reset. -/
theorem resetRequestReinitialises : Obligations.ResetRequestReinitialises :=
  fun _ hin => ⟨_, step_reset hin, fun _ => rfl, rfl, rfl, rfl, rfl, rfl⟩

/-- Settles O31: at reset no cell is listed. -/
theorem resetStateIsReadyAndZero : Obligations.ResetStateIsReadyAndZero :=
  ⟨State.cell_of_mem_nil State.reset_mem, rfl, rfl, rfl, rfl⟩

/-- No instruction and no finish enters Ready: the sequencer's step stays in Running, or ends the run. -/
theorem runStep_runState {s t : State} (hrun : s.runState = .running) (h : runStep s = .next t) :
    (t.runState = .running ∧ ∃ i n, decode s.ibuf s.cur = .ok (i, n) ∧ exec i (s.advance n) = .next t) ∨
    (t.runState = .halted ∧ s.cur = s.len) ∨ t.runState = .faulted := by
  obtain ⟨hend, rfl⟩ | ⟨-, k, -, rfl⟩ | ⟨i, n, hd, hexec⟩ := runStep_cases h
  · by_cases hvalid : s.rangeLo ≤ s.rangeHi ∧ s.rangeHi ≤ s.cap
    · exact .inr (.inl ⟨State.finish_runState_of_valid hvalid, hend⟩)
    · exact .inr (.inr (by rw [State.finish_invalid s hvalid, State.raise_runState]))
  · exact .inr (.inr rfl)
  · obtain ⟨ht, -⟩ | ⟨ht, -⟩ := exec_cases hexec
    · exact .inl ⟨by simpa [ht] using hrun, i, n, hd, hexec⟩
    · exact .inr (.inr (by rw [ht, State.raise_runState]))

/-- Settles O33: request by request (`step_cases`), a turn of the sequencer by `runStep_runState`. -/
theorem runStateFollowsItsEdges : Obligations.RunStateFollowsItsEdges := by
  intro s t h
  obtain ⟨hin, rfl⟩ | ⟨buf, lo, hi, hin, rfl⟩ | ⟨hin, hrun, rfl⟩ | ⟨hin, hrun, hstep⟩ := step_cases h
  · simp [hin]
  · by_cases hready : s.runState = .ready
    · simp [State.start_runState s.popInput hready, hready, hin]
    · rw [State.start_ignored s.popInput hready]
      simp +contextual [hready, hin]
  · simp +contextual [hin, hrun]
  · obtain ⟨ht, hexec⟩ | ⟨ht, hend⟩ | ht := runStep_runState (s := s.popInput) hrun hstep
    · simpa [ht, State.turn, hin, hrun] using hexec
    · simpa [ht, State.turn, hin, hrun] using hend
    · simp [ht, State.turn, hin, hrun]

/-! ### Progress and the end of a run (40_sequencer R93, R99) -/

/-- Every instruction answers a next state, so the sequencer's step stops beyond the buffer only. -/
theorem runStep_answers {s : State} (hle : s.cur ≤ s.len) : ∃ t, runStep s = .next t := by
  obtain hend | hin := hle.eq_or_lt
  · exact ⟨_, runStep_end hend⟩
  · cases hd : decode s.ibuf s.cur with
    | error k => exact ⟨_, runStep_error hin hd⟩
    | ok p =>
      obtain ⟨t, hexec, -⟩ := exec_keeps_cur p.1 (s.advance p.2)
      exact ⟨t, (runStep_ok hin hd).trans hexec⟩

/-- Settles O37: a request always answers, the sequencer's own step by `runStep_answers`; beyond the buffer it is
`runStep_past`. -/
theorem stepStopsOnlyBeyondTheBuffer : Obligations.StepStopsOnlyBeyondTheBuffer := by
  refine fun s => ⟨fun hle => ?_, fun ⟨hrun, hidle⟩ hpast => ?_⟩
  · cases hin : s.input with
    | reset => exact ⟨_, step_reset hin⟩
    | start buf lo hi => exact ⟨_, step_start hin⟩
    | idle =>
      by_cases hrun : s.runState = .running
      · rw [step_idle_running hin hrun]
        exact runStep_answers (s := s.popInput) (hle hrun)
      · exact ⟨_, step_idle_stopped hin hrun⟩
  · rw [step_idle_running hidle hrun]
    exact runStep_past (s := s.popInput) hpast

/-- A run that the host leaves alone, with the cursor inside the buffer. -/
structure State.Alone (s : State) : Prop where
  runState : s.runState = .running
  inputs : s.inputs = []
  cur_le : s.cur ≤ s.len

/-- A step of a run left alone ends it, or goes on at least seven bytes further in the same buffer, which the shortest
instruction takes. -/
theorem State.Alone.step_ends_or_advances {s : State} (h : s.Alone) :
    ∃ t, step s = .next t ∧ (t.terminal ∨ (t.Alone ∧ t.len = s.len ∧ s.cur + 7 ≤ t.cur)) := by
  obtain ⟨hrun, hinputs, hle⟩ := h
  have hidle : s.input = .idle := by simp [State.input, hinputs]
  obtain ⟨t, hstep⟩ := runStep_answers (s := s.popInput) hle
  refine ⟨t, (step_idle_running hidle hrun).trans hstep, ?_⟩
  obtain ⟨ht, i, n, hd, hexec⟩ | ⟨ht, -⟩ | ht := runStep_runState (s := s.popInput) hrun hstep
  · obtain ⟨hn, hend⟩ := decode_inside hd
    have h7 := i.length_pos
    obtain ⟨rfl, -⟩ | ⟨rfl, -⟩ := exec_cases hexec
    · refine .inr ⟨⟨ht, by simp [hinputs], hend⟩, rfl, ?_⟩
      simp only [State.setMem_cur, State.advance_cur, State.popInput_cur]
      omega
    · simp at ht
  · exact .inl (.inl ht)
  · exact .inl (.inr ht)

/-- A run left alone ends within one step for every seven bytes that remain and one more. -/
theorem State.Alone.run_ends {s : State} (h : s.Alone) :
    ∃ k t, k ≤ (s.len - s.cur) / 7 + 1 ∧ Host.Core.run core k s = .next t ∧ t.terminal := by
  obtain ⟨t, hstep, hend | ⟨halone, hlen, hcur⟩⟩ := h.step_ends_or_advances
  · exact ⟨1, t, Nat.le_add_left 1 _, run_of_step hstep 0, hend⟩
  · have hle := halone.cur_le
    obtain ⟨k, u, hk, hrun, hend⟩ := halone.run_ends
    exact ⟨k + 1, u, by omega, (run_of_step hstep k).trans hrun, hend⟩
termination_by s.len - s.cur

/-- Settles O38: such a run is one left alone. -/
theorem everyRunTerminates : Obligations.EveryRunTerminates :=
  fun _ hrun hinputs hle => State.Alone.run_ends ⟨hrun, hinputs, hle⟩

end Sys2Proof.Machine

/-! ## Outside the run (30_encoding R78 to R83; 10_state R26 to R28): the assembler, the outputs, the host's side -/

namespace Sys2Proof.Machine

/-! ### Masked fields (30_encoding R80, R81) -/

/-- A field holds its value modulo `2^w`. -/
theorem toNat_ofInt_eq_emod (w : Nat) (v : Int) : ((BitVec.ofInt w v).toNat : Int) = v % 2 ^ w := by
  rw [BitVec.toNat_ofInt, Int.toNat_of_nonneg (Int.emod_nonneg _ (by positivity)), Nat.cast_pow,
    Nat.cast_ofNat]

/-- Settles O43: the two sides of the range test, with `toNat_ofInt_eq_emod` for the value. -/
theorem assemblerMasksSignedValues : Obligations.AssemblerMasksSignedValues := by
  refine fun w v _ => ⟨fun hlo hhi => ⟨_, if_pos ⟨hlo, hhi⟩, toNat_ofInt_eq_emod w v⟩,
    fun hout => if_neg ?_⟩
  rintro ⟨hlo, hhi⟩
  omega

/-- The value of an accepted field. -/
theorem fieldOf_some {w : Nat} {v : Int} {x : BitVec w} (h : fieldOf w v = some x) :
    (x.toNat : Int) = v % 2 ^ w := by
  obtain ⟨-, hx⟩ := Option.ite_none_right_eq_some.1 h
  obtain rfl := Option.some.inj hx
  exact toNat_ofInt_eq_emod w v

/-- An accepted operand A is the operation's tag. -/
theorem tagField_some {op : Opcode} {v : Int} {a : Tag} (h : tagField op v = some a) :
    a = op.tag ∧ (a.toNat : Int) = v % 2 ^ 7 := by
  obtain ⟨x, hx, hif⟩ := Option.bind_eq_some_iff.1 h
  obtain ⟨htag, hxa⟩ := Option.ite_none_right_eq_some.1 hif
  obtain rfl := Option.some.inj hxa
  exact ⟨htag, fieldOf_some hx⟩

/-! ### The instruction a line spells (30_encoding R73, R78) -/

/-- The field `x` is the value a line gives the key `k`, modulo `2^w`. -/
def FieldGiven (ops : List (Key × Int)) (k : Key) {w : Nat} (x : BitVec w) : Prop :=
  ∃ v : Int, ops.lookup k = some v ∧ (x.toNat : Int) = v % 2 ^ w

/-- Each field of the instruction is given by its key. -/
def FieldsGiven (ops : List (Key × Int)) : Instr → Prop
  | .loadConst a b c => FieldGiven ops .a a ∧ FieldGiven ops .b b ∧ FieldGiven ops .c c
  | .writeMem a b c => FieldGiven ops .a a ∧ FieldGiven ops .b b ∧ FieldGiven ops .c c
  | .readMem a b c d =>
    FieldGiven ops .a a ∧ FieldGiven ops .b b ∧ FieldGiven ops .c c ∧ FieldGiven ops .d d
  | .unarySqrt a b c d =>
    FieldGiven ops .a a ∧ FieldGiven ops .b b ∧ FieldGiven ops .c c ∧ FieldGiven ops .d d

/-- What `buildInstr` answers is the named operation, well formed, with the fields its keys give. -/
theorem buildInstr_some {op : Opcode} {ops : List (Key × Int)} {i : Instr}
    (h : buildInstr op ops = some i) : i.opcode = op ∧ i.wellFormed = true ∧ FieldsGiven ops i := by
  simp only [buildInstr, Option.bind_eq_bind, Option.bind_eq_some_iff] at h
  obtain ⟨va, hva, a, ha, vb, hvb, b, hb, vc, hvc, h⟩ := h
  obtain ⟨rfl, ha⟩ := tagField_some ha
  have hA : FieldGiven ops .a op.tag := ⟨va, hva, ha⟩
  have hB : FieldGiven ops .b b := ⟨vb, hvb, fieldOf_some hb⟩
  have hC {w : Nat} {c : BitVec w} (hc : fieldOf w vc = some c) : FieldGiven ops .c c :=
    ⟨vc, hvc, fieldOf_some hc⟩
  cases op with
  | loadConst =>
    obtain ⟨c, hc, h⟩ := Option.bind_eq_some_iff.1 h
    obtain rfl := Option.some.inj h
    exact ⟨rfl, rfl, hA, hB, hC hc⟩
  | writeMem =>
    obtain ⟨c, hc, h⟩ := Option.bind_eq_some_iff.1 h
    obtain rfl := Option.some.inj h
    exact ⟨rfl, rfl, hA, hB, hC hc⟩
  | readMem =>
    simp only [Option.bind_eq_some_iff] at h
    obtain ⟨c, hc, vd, hvd, d, hd, h⟩ := h
    obtain rfl := Option.some.inj h
    exact ⟨rfl, rfl, hA, hB, hC hc, vd, hvd, fieldOf_some hd⟩
  | unarySqrt =>
    simp only [Option.bind_eq_some_iff] at h
    obtain ⟨c, hc, vd, hvd, d, hd, h⟩ := h
    obtain rfl := Option.some.inj h
    exact ⟨rfl, rfl, hA, hB, hC hc, vd, hvd, fieldOf_some hd⟩

/-- A traversal that succeeds gives every element's value in order. -/
theorem map_of_mapM_some {α β : Type} {f : α → Option β} {xs : List α} {ys : List β}
    (h : xs.mapM f = some ys) : xs.map f = ys.map some := by
  induction xs generalizing ys with
  | nil => cases h; rfl
  | cons x xs ih =>
    simp only [List.mapM_cons, Option.bind_eq_bind, Option.bind_eq_some_iff] at h
    obtain ⟨y, hy, zs, hzs, h⟩ := h
    obtain rfl := Option.some.inj h
    rw [List.map_cons, List.map_cons, hy, ih hzs]

/-- An option turned into an answer is accepted only as the value it holds. -/
theorem eq_some_of_elim_ok {α ε : Type} {o : Option α} {e : ε} {x : α}
    (h : o.elim (.error e) .ok = (.ok x : Except ε α)) : o = some x := by
  cases o with
  | none => cases h
  | some y => cases h; rfl

/-- What an accepted line is made of: its mnemonic, its operand tokens, and the instruction they spell. -/
theorem parseLine_ok {line : List Char} {i : Instr} {ops : List (Key × Int)}
    (h : parseLine line = .ok (i, ops)) :
    ∃ mnemonic toks op, splitTokens line [] = mnemonic :: toks ∧ mnemonicOf mnemonic = some op ∧
      toks.map parseOperand = ops.map some ∧ buildInstr op ops = some i := by
  unfold parseLine at h
  cases hline : splitTokens line [] with
  | nil => rw [hline] at h; cases h
  | cons mnemonic toks =>
    rw [hline] at h
    have hsome := eq_some_of_elim_ok h
    simp only [Option.bind_eq_bind, Option.bind_eq_some_iff, Option.ite_none_right_eq_some] at hsome
    obtain ⟨op, hop, ops', hops, -, i', hi, hpair⟩ := hsome
    obtain ⟨rfl, rfl⟩ := Prod.mk.inj (Option.some.inj hpair)
    exact ⟨mnemonic, toks, op, rfl, hop, map_of_mapM_some hops, hi⟩

/-- Settles O44: `parseLine_ok` for the tokens, `buildInstr_some` for the fields of each operation. -/
theorem assembledFieldsAreTheLinesOperands : Obligations.AssembledFieldsAreTheLinesOperands := by
  intro line i ops h
  obtain ⟨mnemonic, toks, op, hline, hmnemonic, htoks, hbuild⟩ := parseLine_ok h
  obtain ⟨rfl, -, hfields⟩ := buildInstr_some hbuild
  refine ⟨⟨mnemonic, toks, hline, hmnemonic, htoks⟩, ?_⟩
  cases i with
  | loadConst a b c =>
    obtain ⟨⟨va, hva, ha⟩, ⟨vb, hvb, hb⟩, vc, hvc, hc⟩ := hfields
    exact ⟨va, vb, vc, hva, hvb, hvc, ha, hb, hc⟩
  | writeMem a b c =>
    obtain ⟨⟨va, hva, ha⟩, ⟨vb, hvb, hb⟩, vc, hvc, hc⟩ := hfields
    exact ⟨va, vb, vc, hva, hvb, hvc, ha, hb, hc⟩
  | readMem a b c d =>
    obtain ⟨⟨va, hva, ha⟩, ⟨vb, hvb, hb⟩, ⟨vc, hvc, hc⟩, vd, hvd, hd⟩ := hfields
    exact ⟨va, vb, vc, vd, hva, hvb, hvc, hvd, ha, hb, hc, hd⟩
  | unarySqrt a b c d =>
    obtain ⟨⟨va, hva, ha⟩, ⟨vb, hvb, hb⟩, ⟨vc, hvc, hc⟩, vd, hvd, hd⟩ := hfields
    exact ⟨va, vb, vc, vd, hva, hvb, hvc, hvd, ha, hb, hc, hd⟩

/-! ### The text (30_encoding R60, R83) -/

/-- The audit records of parsed lines, the first index being `k`. -/
def auditRecords (k : Nat) (parsed : List (Instr × List (Key × Int))) : List AuditRecord :=
  (parsed.zipIdx k).map fun p => { index := p.2, operands := p.1.2 }

/-- Lines that are accepted all parse, and what is emitted is the encodings and the records of what they parse to. -/
theorem assembleLines_ok {k : Nat} {lines : List (List Char)} {bytes : List Byte}
    {records : List AuditRecord} (h : assembleLines k lines = .ok (bytes, records)) :
    ∃ parsed, lines.map parseLine = parsed.map .ok ∧ bytes = (parsed.map Prod.fst).flatMap encode ∧
      records = auditRecords k parsed := by
  induction lines generalizing k bytes records with
  | nil => cases h; exact ⟨[], rfl, rfl, rfl⟩
  | cons line lines ih =>
    cases hline : parseLine line with
    | error e => rw [assembleLines, hline] at h; cases h
    | ok p =>
      cases hrest : assembleLines (k + 1) lines with
      | error e => rw [assembleLines, hline, hrest] at h; cases h
      | ok q =>
        obtain ⟨parsed, hparsed, hbytes, hrecords⟩ := ih hrest
        rw [assembleLines, hline, hrest] at h
        cases h
        refine ⟨p :: parsed, by rw [List.map_cons, List.map_cons, hline, hparsed], ?_, ?_⟩
        · rw [hbytes]; rfl
        · rw [hrecords]; rfl

/-- Settles O42: `assembleLines_ok` from index 0; each line's instruction is well formed by `buildInstr_some`. -/
theorem assemblerConcatenatesEncodings : Obligations.AssemblerConcatenatesEncodings := by
  intro text bytes records h
  obtain ⟨parsed, hparsed, hbytes, rfl⟩ := assembleLines_ok h
  refine ⟨parsed.map Prod.fst, fun i hi => ?_, hbytes, ?_, ?_, fun k line hline => ?_⟩
  · obtain ⟨⟨i, ops⟩, hp, rfl⟩ := List.mem_map.1 hi
    obtain ⟨line, -, hline⟩ := List.mem_map.1 (hparsed ▸ List.mem_map_of_mem hp)
    obtain ⟨_, _, _, -, -, -, hbuild⟩ := parseLine_ok hline
    obtain ⟨-, hwf, -⟩ := buildInstr_some hbuild
    exact hwf
  · simpa using (congrArg List.length hparsed).symm
  · simp [auditRecords, Function.comp_def, List.range_eq_range']
  · have hk : (parsed.map (Except.ok (ε := AsmError)))[k]? = some (parseLine line) := by
      rw [← hparsed, List.getElem?_map, hline, Option.map_some]
    obtain ⟨⟨i, ops⟩, hp, hok⟩ := Option.map_eq_some_iff.1 (List.getElem?_map.symm.trans hk)
    refine ⟨i, ops, hok.symm, by rw [List.getElem?_map, hp, Option.map_some], ?_⟩
    simp [auditRecords, hp]

/-! ### The outputs and the host's side (10_state R26 to R28) -/

/-- Settles O40: the codes are the two tables. -/
theorem outputsShowStatusCodes : Obligations.OutputsShowStatusCodes :=
  fun _ => ⟨rfl, rfl, rfl⟩

/-- Settles O41, by the sign of the bounds. -/
theorem negativeExportBoundIsRefused : Obligations.NegativeExportBoundIsRefused := by
  refine fun buf lo hi => ⟨fun hneg => if_pos hneg, ?_⟩
  rintro l h rfl rfl
  exact if_neg (by omega)

end Sys2Proof.Machine
